-- ==== Sys2Proof/Word.lean ====
section
/-! DEFINITION. The value types of the CORE (00_scope.md R12, 30_encoding.md R81): every value is unsigned. -/

namespace Sys2Proof

/-- `u8`: a register, a memory byte, an 8-bit immediate `nn`. -/
abbrev Byte := BitVec 8

/-- `u16`: an opcode word, PC, I, a stack entry. -/
abbrev Word := BitVec 16

/-- The 4-bit field `n` (a row count or a sub-operation selector, R82). -/
abbrev Nibble := BitVec 4

/-- `u12`: the field `nnn` (R82). -/
abbrev Imm12 := BitVec 12

/-- The number of a general register V0..VF (R21). -/
abbrev Reg := Fin 16

/-- The number of a logical key (R30). -/
abbrev Key := Fin 16

/-- VF, the flag register (R22). -/
abbrev VF : Reg := 15

end Sys2Proof
end

