-- ==== Sys2Proof/Config.lean ====
section
/-! DEFINITION. What an implementation fixes: the sizes of 00_scope.md R9, the types of the OPEN `P_` parameters (every
value the spec offers), and the free values: the random source, and what a register holds that has no value at
reset. The parameters' defaults are in Machine/Reset.lean. -/

namespace Sys2Proof

/-- `MEM_SIZE` (R9). -/
abbrev memSize : Nat := 4096
/-- `RESERVED_END` (R9): bytes below it are the reserved region. -/
abbrev reservedEnd : Nat := 0x200
/-- `FONT_BASE` (R9). -/
abbrev fontBase : Nat := 0x050
/-- `GLYPH_BYTES` (R9). -/
abbrev glyphBytes : Nat := 5
/-- `PROG_BASE` (R9). -/
abbrev progBase : Nat := 0x200
/-- `PROG_MAX` (R9). -/
abbrev progMax : Nat := 3584
/-- `STACK_DEPTH` (R9). -/
abbrev stackDepth : Nat := 16
/-- `DISPLAY_W` (R9). -/
abbrev displayW : Nat := 64
/-- `DISPLAY_H` (R9). -/
abbrev displayH : Nat := 32

/-- `P_SKIP_LOW_NIBBLE` (R9, R86, D11): what `5XYN` and `9XYN` with `n ≠ 0` do. -/
inductive SkipLowNibble where
  | noop
  | ignore
  | fault
  deriving DecidableEq, Repr

/-- `P_VF_ORDER` (R9, R137, D12): which of result and flag is written last. -/
inductive VFOrder where
  | flagLast
  | resultLast
  deriving DecidableEq, Repr

/-- `P_KEY_INDEX` (R9, R206, D13): what a key index above 0x0F does. -/
inductive KeyIndexMode where
  | fault
  | mask
  deriving DecidableEq, Repr

/-- `P_I_OVERFLOW` (R9, R161, D15): what a carry out of I does. -/
inductive IOverflow where
  | wrap
  | fault
  deriving DecidableEq, Repr

/-- `P_RESERVED_STORE` (R9, R62, D6): what a store below 0x200 does. -/
inductive ReservedStore where
  | store
  | fault
  deriving DecidableEq, Repr

/-- `P_RESET_VALUES` (R9, R280, D8): whether V0..VF, I, DT and ST hold 0 at reset or no stated value, which is then a free one
(log entry 9). -/
inductive ResetValues where
  | zero
  | unwritten
  deriving DecidableEq, Repr

/-- The `P_` parameters, all six, which the model takes as an argument (R9). -/
structure Params where
  skipLowNibble : SkipLowNibble
  vfOrder : VFOrder
  keyIndex : KeyIndexMode
  iOverflow : IOverflow
  reservedStore : ReservedStore
  resetValues : ResetValues
  deriving DecidableEq, Repr

/-- `draw_random()` (R15, R143, R261): the k-th random byte of the run is a free value under no law. No body: nothing can
prove a value of it (log entry 6). -/
opaque Config.randomByte : Nat → Byte

/-- The byte a register holds at reset under P_RESET_VALUES = unwritten (R280): a free value, V0..VF at 0 to 15, DT at 16, ST at
17. No body: nothing can prove a value of it (log entry 9). -/
opaque Config.unwrittenByte : Nat → Byte

/-- The word I holds at reset under P_RESET_VALUES = unwritten (R280): a free value (log entry 9). -/
opaque Config.unwrittenIndex : Word

end Sys2Proof
end

