-- ==== Sys2Proof/Syntax.lean ====
section
/-! DEFINITION. The instructions: one constructor per row of spec/opcode_table.json, in the table's order, with every
operand field the row gives (30_encoding.md R81, R84). -/

namespace Sys2Proof

/-- The 38 rows of the opcode table. Fields an instruction ignores (R85) are kept, so that no bit of a word is lost. -/
inductive Instr where
  /-- CLS `00E0` (R181) -/
  | cls
  /-- RET `00EE` (R102) -/
  | ret
  /-- SYS nnn `0NNN`, other (R101) -/
  | sys (nnn : Imm12)
  /-- JP nnn `1NNN` (R103) -/
  | jp (nnn : Imm12)
  /-- CALL nnn `2NNN` (R104) -/
  | call (nnn : Imm12)
  /-- SE Vx, nn `3XNN` (R106) -/
  | seImm (x : Reg) (nn : Byte)
  /-- SNE Vx, nn `4XNN` (R107) -/
  | sneImm (x : Reg) (nn : Byte)
  /-- SE Vx, Vy `5XY0` (R108) -/
  | seReg (x y : Reg)
  /-- `5XYN`, N ≠ 0 (R110) -/
  | seRegN (x y : Reg) (n : Nibble)
  /-- LD Vx, nn `6XNN` (R130) -/
  | ldImm (x : Reg) (nn : Byte)
  /-- ADD Vx, nn `7XNN` (R131) -/
  | addImm (x : Reg) (nn : Byte)
  /-- LD Vx, Vy `8XY0` (R132) -/
  | ldReg (x y : Reg)
  /-- OR Vx, Vy `8XY1` (R133) -/
  | orReg (x y : Reg)
  /-- AND Vx, Vy `8XY2` (R134) -/
  | andReg (x y : Reg)
  /-- XOR Vx, Vy `8XY3` (R135) -/
  | xorReg (x y : Reg)
  /-- ADD Vx, Vy `8XY4` (R138) -/
  | addReg (x y : Reg)
  /-- SUB Vx, Vy `8XY5` (R139) -/
  | sub (x y : Reg)
  /-- SHR Vx `8XY6` (R140); y is ignored -/
  | shr (x y : Reg)
  /-- SUBN Vx, Vy `8XY7` (R141) -/
  | subn (x y : Reg)
  /-- SHL Vx `8XYE` (R142); y is ignored -/
  | shl (x y : Reg)
  /-- SNE Vx, Vy `9XY0` (R109) -/
  | sneReg (x y : Reg)
  /-- `9XYN`, N ≠ 0 (R110) -/
  | sneRegN (x y : Reg) (n : Nibble)
  /-- LD I, nnn `ANNN` (R160) -/
  | ldI (nnn : Imm12)
  /-- JP V0, nnn `BNNN` (R111) -/
  | jpV0 (nnn : Imm12)
  /-- RND Vx, nn `CXNN` (R143) -/
  | rnd (x : Reg) (nn : Byte)
  /-- DRW Vx, Vy, n `DXYN` (R182) -/
  | drw (x y : Reg) (n : Nibble)
  /-- SKP Vx `EX9E` (R200) -/
  | skp (x : Reg)
  /-- SKNP Vx `EXA1` (R201) -/
  | sknp (x : Reg)
  /-- LD Vx, DT `FX07` (R203) -/
  | ldVxDT (x : Reg)
  /-- LD Vx, K `FX0A` (R202) -/
  | ldK (x : Reg)
  /-- LD DT, Vx `FX15` (R204) -/
  | ldDTVx (x : Reg)
  /-- LD ST, Vx `FX18` (R205) -/
  | ldSTVx (x : Reg)
  /-- ADD I, Vx `FX1E` (R161) -/
  | addI (x : Reg)
  /-- LD F, Vx `FX29` (R162) -/
  | ldF (x : Reg)
  /-- LD B, Vx `FX33` (R163) -/
  | ldB (x : Reg)
  /-- LD [I], Vx `FX55` (R164) -/
  | ldMemRegs (x : Reg)
  /-- LD Vx, [I] `FX65` (R165) -/
  | ldRegsMem (x : Reg)
  /-- every word no other row takes (R87, R112) -/
  | unrecognized (w : Word)
  deriving DecidableEq, Repr

end Sys2Proof
end

