-- ==== Sys2Proof/WellFormed.lean ====
section
/-! DEFINITION. Which terms of Instr stand for a word of the hardware. The operand types already bound every field; what
is left to check is that a row which shares its mask with an earlier row holds only the words R83 and R84 leave to it. -/

namespace Sys2Proof

/-- SYS is every `0NNN` but the words of CLS and RET (R84). -/
def sysOperandOk (nnn : Imm12) : Bool := nnn != 0x0E0#12 && nnn != 0x0EE#12

/-- `SE.reg.n` and `SNE.reg.n` hold only `n ≠ 0` (R83, R86). -/
def lowNibbleOk (n : Nibble) : Bool := n != 0#4

/-- A word with kind 8 that names no instruction: N in 8, 9, A, B, C, D, F (R87). -/
def unrecognizedKind8 (w : Word) : Bool :=
  w.toNat / 4096 == 0x8 && [0x8, 0x9, 0xA, 0xB, 0xC, 0xD, 0xF].contains (w.toNat % 16)

/-- A word with kind E that names no instruction: NN neither 9E nor A1 (R87). -/
def unrecognizedKindE (w : Word) : Bool :=
  w.toNat / 4096 == 0xE && !([0x9E, 0xA1].contains (w.toNat % 256))

/-- A word with kind F that names no instruction (R87). -/
def unrecognizedKindF (w : Word) : Bool :=
  w.toNat / 4096 == 0xF && !([0x07, 0x0A, 0x15, 0x18, 0x1E, 0x29, 0x33, 0x55, 0x65].contains (w.toNat % 256))

/-- The words of R87 that only the catch-all row takes. -/
def unrecognizedWord (w : Word) : Bool := unrecognizedKind8 w || unrecognizedKindE w || unrecognizedKindF w

/-- A term of Instr that some word decodes to. -/
def Instr.wellFormed : Instr → Bool
  | .cls => true
  | .ret => true
  | .sys nnn => sysOperandOk nnn
  | .jp _ => true
  | .call _ => true
  | .seImm _ _ => true
  | .sneImm _ _ => true
  | .seReg _ _ => true
  | .seRegN _ _ n => lowNibbleOk n
  | .ldImm _ _ => true
  | .addImm _ _ => true
  | .ldReg _ _ => true
  | .orReg _ _ => true
  | .andReg _ _ => true
  | .xorReg _ _ => true
  | .addReg _ _ => true
  | .sub _ _ => true
  | .shr _ _ => true
  | .subn _ _ => true
  | .shl _ _ => true
  | .sneReg _ _ => true
  | .sneRegN _ _ n => lowNibbleOk n
  | .ldI _ => true
  | .jpV0 _ => true
  | .rnd _ _ => true
  | .drw _ _ _ => true
  | .skp _ => true
  | .sknp _ => true
  | .ldVxDT _ => true
  | .ldK _ => true
  | .ldDTVx _ => true
  | .ldSTVx _ => true
  | .addI _ => true
  | .ldF _ => true
  | .ldB _ => true
  | .ldMemRegs _ => true
  | .ldRegsMem _ => true
  | .unrecognized w => unrecognizedWord w

end Sys2Proof
end

