-- ==== Sys2Proof/Decode.lean ====
section
/-! DEFINITION. The instruction decoder and the encoder (30_encoding.md). The decoder is the spec's own procedure: the
first row of spec/opcode_table.json whose `(w & mask) == match` (R83). -/

namespace Sys2Proof

/-! ## Fields and byte order -/

/-- The register a 4-bit field selects (R21, R82). -/
def regOf (b : Nibble) : Reg := ⟨b.toNat, b.isLt⟩
/-- The 4-bit field that selects a register. -/
def nibbleOf (r : Reg) : Nibble := BitVec.ofNat 4 r.val

/-- Field `kind`, bits 15:12 (R81). -/
def kindField (w : Word) : Nibble := w.extractLsb' 12 4
/-- Field `x`, bits 11:8 (R81). -/
def xField (w : Word) : Reg := regOf (w.extractLsb' 8 4)
/-- Field `y`, bits 7:4 (R81). -/
def yField (w : Word) : Reg := regOf (w.extractLsb' 4 4)
/-- Field `n`, bits 3:0 (R81). -/
def nField (w : Word) : Nibble := w.extractLsb' 0 4
/-- Field `nn`, bits 7:0 (R81). -/
def nnField (w : Word) : Byte := w.extractLsb' 0 8
/-- Field `nnn`, bits 11:0 (R81). -/
def nnnField (w : Word) : Imm12 := w.extractLsb' 0 12

/-- Big-endian: the byte at the lower address is bits 15:8 (R67). -/
def bigEndian (hi lo : Byte) : Word := hi ++ lo
/-- The byte of a word at the lower address (R67). -/
def highByte (w : Word) : Byte := w.extractLsb' 8 8
/-- The byte of a word at the higher address (R67). -/
def lowByte (w : Word) : Byte := w.extractLsb' 0 8

/-! ## The opcode table -/

/-- One row of spec/opcode_table.json: its mnemonic, its mask and match, and the instruction its words stand for. -/
structure Row where
  mnemonic : String
  mask : Word
  pattern : Word
  build : Word → Instr

/-- `(w & mask) == match` (R83). -/
def Row.takes (r : Row) (w : Word) : Bool := (w &&& r.mask) == r.pattern

/-- Kinds 0 to 7. -/
def rowsLow : List Row := [
  ⟨"CLS", 0xFFFF, 0x00E0, fun _ => .cls⟩,
  ⟨"RET", 0xFFFF, 0x00EE, fun _ => .ret⟩,
  ⟨"SYS", 0xF000, 0x0000, fun w => .sys (nnnField w)⟩,
  ⟨"JP", 0xF000, 0x1000, fun w => .jp (nnnField w)⟩,
  ⟨"CALL", 0xF000, 0x2000, fun w => .call (nnnField w)⟩,
  ⟨"SE.imm", 0xF000, 0x3000, fun w => .seImm (xField w) (nnField w)⟩,
  ⟨"SNE.imm", 0xF000, 0x4000, fun w => .sneImm (xField w) (nnField w)⟩,
  ⟨"SE.reg", 0xF00F, 0x5000, fun w => .seReg (xField w) (yField w)⟩,
  ⟨"SE.reg.n", 0xF000, 0x5000, fun w => .seRegN (xField w) (yField w) (nField w)⟩,
  ⟨"LD.imm", 0xF000, 0x6000, fun w => .ldImm (xField w) (nnField w)⟩,
  ⟨"ADD.imm", 0xF000, 0x7000, fun w => .addImm (xField w) (nnField w)⟩]

/-- Kind 8. -/
def rowsAlu : List Row := [
  ⟨"LD.reg", 0xF00F, 0x8000, fun w => .ldReg (xField w) (yField w)⟩,
  ⟨"OR", 0xF00F, 0x8001, fun w => .orReg (xField w) (yField w)⟩,
  ⟨"AND", 0xF00F, 0x8002, fun w => .andReg (xField w) (yField w)⟩,
  ⟨"XOR", 0xF00F, 0x8003, fun w => .xorReg (xField w) (yField w)⟩,
  ⟨"ADD.reg", 0xF00F, 0x8004, fun w => .addReg (xField w) (yField w)⟩,
  ⟨"SUB", 0xF00F, 0x8005, fun w => .sub (xField w) (yField w)⟩,
  ⟨"SHR", 0xF00F, 0x8006, fun w => .shr (xField w) (yField w)⟩,
  ⟨"SUBN", 0xF00F, 0x8007, fun w => .subn (xField w) (yField w)⟩,
  ⟨"SHL", 0xF00F, 0x800E, fun w => .shl (xField w) (yField w)⟩]

/-- Kinds 9 to E. -/
def rowsMid : List Row := [
  ⟨"SNE.reg", 0xF00F, 0x9000, fun w => .sneReg (xField w) (yField w)⟩,
  ⟨"SNE.reg.n", 0xF000, 0x9000, fun w => .sneRegN (xField w) (yField w) (nField w)⟩,
  ⟨"LD.I", 0xF000, 0xA000, fun w => .ldI (nnnField w)⟩,
  ⟨"JP.V0", 0xF000, 0xB000, fun w => .jpV0 (nnnField w)⟩,
  ⟨"RND", 0xF000, 0xC000, fun w => .rnd (xField w) (nnField w)⟩,
  ⟨"DRW", 0xF000, 0xD000, fun w => .drw (xField w) (yField w) (nField w)⟩,
  ⟨"SKP", 0xF0FF, 0xE09E, fun w => .skp (xField w)⟩,
  ⟨"SKNP", 0xF0FF, 0xE0A1, fun w => .sknp (xField w)⟩]

/-- Kind F. -/
def rowsHigh : List Row := [
  ⟨"LD.Vx_DT", 0xF0FF, 0xF007, fun w => .ldVxDT (xField w)⟩,
  ⟨"LD.K", 0xF0FF, 0xF00A, fun w => .ldK (xField w)⟩,
  ⟨"LD.DT_Vx", 0xF0FF, 0xF015, fun w => .ldDTVx (xField w)⟩,
  ⟨"LD.ST_Vx", 0xF0FF, 0xF018, fun w => .ldSTVx (xField w)⟩,
  ⟨"ADD.I", 0xF0FF, 0xF01E, fun w => .addI (xField w)⟩,
  ⟨"LD.F", 0xF0FF, 0xF029, fun w => .ldF (xField w)⟩,
  ⟨"LD.B", 0xF0FF, 0xF033, fun w => .ldB (xField w)⟩,
  ⟨"LD.mem_from_regs", 0xF0FF, 0xF055, fun w => .ldMemRegs (xField w)⟩,
  ⟨"LD.regs_from_mem", 0xF0FF, 0xF065, fun w => .ldRegsMem (xField w)⟩]

/-- The rows that name an instruction, in the table's order; the catch-all row UNRECOGNIZED (mask 0) is the answer where
none of them takes the word. -/
def opcodeRows : List Row := rowsLow ++ rowsAlu ++ rowsMid ++ rowsHigh

/-! ## The decoder -/

/-- `decode(w)` (R83, R100): total, the first row that takes the word. -/
def decodeWord (w : Word) : Instr :=
  match opcodeRows.find? (fun r => r.takes w) with
  | some r => r.build w
  | none => .unrecognized w

/-- Why bytes are no instruction: only that there are fewer than two of them (R80, R83). -/
inductive DecodeError where
  /-- fewer than the two bytes of an opcode; raised by `decode`, safe -/
  | truncated
  deriving DecidableEq, Repr

/-- The instruction at the front of a list of bytes, in memory order, and the bytes after it (R67, R80). -/
def decode : List Byte → Except DecodeError (Instr × List Byte)
  | hi :: lo :: rest => .ok (decodeWord (bigEndian hi lo), rest)
  | _ => .error .truncated

/-- The instruction of a word numbered as spec/opcode_table.json numbers its bits: one 16-bit word, high byte first in memory. -/
def decodeTableWord (_nbits w : Nat) : Option Instr :=
  let word := BitVec.ofNat 16 w
  match decode [highByte word, lowByte word] with
  | .ok (i, _) => some i
  | .error _ => none

/-! ## The encoder -/

/-- A word of four nibbles: kind, x, y, n (R81). -/
def wordXYN (kind : Nibble) (x y : Reg) (n : Nibble) : Word := kind ++ nibbleOf x ++ nibbleOf y ++ n
/-- A word of kind, x and nn (R81). -/
def wordXNN (kind : Nibble) (x : Reg) (nn : Byte) : Word := kind ++ nibbleOf x ++ nn
/-- A word of kind and nnn (R81). -/
def wordNNN (kind : Nibble) (nnn : Imm12) : Word := kind ++ nnn

/-- The word of an instruction, from the patterns of R84. -/
def encodeWord : Instr → Word
  | .cls => 0x00E0
  | .ret => 0x00EE
  | .sys nnn => wordNNN 0x0 nnn
  | .jp nnn => wordNNN 0x1 nnn
  | .call nnn => wordNNN 0x2 nnn
  | .seImm x nn => wordXNN 0x3 x nn
  | .sneImm x nn => wordXNN 0x4 x nn
  | .seReg x y => wordXYN 0x5 x y 0x0
  | .seRegN x y n => wordXYN 0x5 x y n
  | .ldImm x nn => wordXNN 0x6 x nn
  | .addImm x nn => wordXNN 0x7 x nn
  | .ldReg x y => wordXYN 0x8 x y 0x0
  | .orReg x y => wordXYN 0x8 x y 0x1
  | .andReg x y => wordXYN 0x8 x y 0x2
  | .xorReg x y => wordXYN 0x8 x y 0x3
  | .addReg x y => wordXYN 0x8 x y 0x4
  | .sub x y => wordXYN 0x8 x y 0x5
  | .shr x y => wordXYN 0x8 x y 0x6
  | .subn x y => wordXYN 0x8 x y 0x7
  | .shl x y => wordXYN 0x8 x y 0xE
  | .sneReg x y => wordXYN 0x9 x y 0x0
  | .sneRegN x y n => wordXYN 0x9 x y n
  | .ldI nnn => wordNNN 0xA nnn
  | .jpV0 nnn => wordNNN 0xB nnn
  | .rnd x nn => wordXNN 0xC x nn
  | .drw x y n => wordXYN 0xD x y n
  | .skp x => wordXNN 0xE x 0x9E
  | .sknp x => wordXNN 0xE x 0xA1
  | .ldVxDT x => wordXNN 0xF x 0x07
  | .ldK x => wordXNN 0xF x 0x0A
  | .ldDTVx x => wordXNN 0xF x 0x15
  | .ldSTVx x => wordXNN 0xF x 0x18
  | .addI x => wordXNN 0xF x 0x1E
  | .ldF x => wordXNN 0xF x 0x29
  | .ldB x => wordXNN 0xF x 0x33
  | .ldMemRegs x => wordXNN 0xF x 0x55
  | .ldRegsMem x => wordXNN 0xF x 0x65
  | .unrecognized w => w

/-- The bytes of an instruction in memory order (R67). -/
def encode (i : Instr) : List Byte := [highByte (encodeWord i), lowByte (encodeWord i)]

end Sys2Proof
end

