-- ==== Sys2Proof/Machine/Reset.lean ====
section
/-! DEFINITION. What reset gives that the spec fixes by a default: the parameters' defaults (R9), the font image (R64) and
the byte every address holds at reset with no program loaded (R61, R66). -/

namespace Sys2Proof.Machine

/-- The defaults of the `P_` parameters (R9). -/
def defaultParams : Params :=
  { skipLowNibble := .noop, vfOrder := .flagLast, keyIndex := .fault, iOverflow := .wrap, reservedStore := .store,
    resetValues := .zero }

/-- The glyphs of the default `FONT_IMAGE`, digits 0 to F (R64). -/
def fontGlyphs : List (List Byte) := [
  [0xF0, 0x90, 0x90, 0x90, 0xF0],
  [0x20, 0x60, 0x20, 0x20, 0x70],
  [0xF0, 0x10, 0xF0, 0x80, 0xF0],
  [0xF0, 0x10, 0xF0, 0x10, 0xF0],
  [0x90, 0x90, 0xF0, 0x10, 0x10],
  [0xF0, 0x80, 0xF0, 0x10, 0xF0],
  [0xF0, 0x80, 0xF0, 0x90, 0xF0],
  [0xF0, 0x10, 0x20, 0x40, 0x40],
  [0xF0, 0x90, 0xF0, 0x90, 0xF0],
  [0xF0, 0x90, 0xF0, 0x10, 0xF0],
  [0xF0, 0x90, 0xF0, 0x90, 0x90],
  [0xE0, 0x90, 0xE0, 0x90, 0xE0],
  [0xF0, 0x80, 0x80, 0x80, 0xF0],
  [0xE0, 0x90, 0x90, 0x90, 0xE0],
  [0xF0, 0x80, 0xF0, 0x80, 0xF0],
  [0xF0, 0x80, 0xF0, 0x80, 0x80]]

/-- The default `FONT_IMAGE`: 16 glyphs of 5 bytes, one after the other (R63, R64). -/
def fontBytes : List Byte := fontGlyphs.flatten

/-- The default `FONT_IMAGE` as the parameter it is (R64): exactly 80 bytes. -/
def defaultFont : Vector Byte 80 := ⟨fontBytes.toArray, by decide⟩

/-- What an address holds at reset with no program loaded, and so what an address memory does not list reads as: the font
at 0x050-0x09F, 0 elsewhere (R61, R66). -/
def resetByte (a : Nat) : Byte := if a < fontBase then 0 else fontBytes.getD (a - fontBase) 0

end Sys2Proof.Machine
end

