-- ==== Sys2Proof/Machine/State.lean ====
section
/-! DEFINITION. The state of the CORE as plain data (10_state.md), the stops, the faults and the refusals, and the state
after reset (R280). -/

namespace Sys2Proof.Machine

/-- Memory: the bytes that differ from their reset content, by address (R60, R66). Its one canonical form is `Memory.wf`
of Machine/Ops.lean. -/
abbrev Memory := List Host.Cell

/-- The display buffer, `disp[px][py]`: 64 columns of 32 rows (R29). -/
abbrev Display := Vector (Vector Bool 32) 64

/-- The stop reasons (R231). -/
inductive StopReason where
  /-- RET with an empty stack (R102) -/
  | stackUnderflow
  /-- CALL at depth 16 (R104) -/
  | stackOverflow
  /-- a fetch at pc ≥ 0x0FFF (R65) or a data access at 4096 or above (R71) -/
  | memoryBounds
  /-- SKP, SKNP with V[x] > 0x0F under P_KEY_INDEX = fault (R206) -/
  | keyIndex
  /-- `5XYN`, `9XYN` with n ≠ 0 under P_SKIP_LOW_NIBBLE = fault (R110) -/
  | illegalEncoding
  /-- a store below 0x200 under P_RESERVED_STORE = fault (R62) -/
  | reservedWrite
  /-- ADD I, Vx past 0xFFFF under P_I_OVERFLOW = fault (R161) -/
  | indexOverflow
  deriving DecidableEq, Repr

/-- A stop: its reason and the recorded `info` (R231), a natural number since a failing byte address can pass 0xFFFF (R69). -/
structure Stop where
  reason : StopReason
  info : Nat
  deriving DecidableEq, Repr

/-- The engine's run state (R33, R247). -/
inductive Status where
  | running
  | stopped (stop : Stop)
  deriving DecidableEq, Repr

/-- The core's outputs to the audio trigger (R241). -/
inductive AudioSignal where
  | start
  | stop
  deriving DecidableEq, Repr

/-- The transactions that come between the engine and its host, each served by one indivisible step (R250, R262). -/
inductive Event where
  /-- a cycle tick: one cycle step (R100) -/
  | cycle
  /-- a timer tick: one `tick_timers()` (R240) -/
  | timerTick
  /-- the host's `set(k, down)` (R245) -/
  | key (k : Key) (down : Bool)
  /-- the host's `snapshot()` (R180) -/
  | snapshot
  deriving DecidableEq, Repr

/-- The CORE's state: exactly the eleven fields of R20. -/
structure CoreState where
  /-- V0..VF (R21); VF is also the flag (R22) -/
  v : Vector Byte 16
  /-- the index register I (R24) -/
  i : Word
  /-- the program counter (R25) -/
  pc : Word
  /-- the call stack, oldest entry first, top entry last; `depth` is its length (R27) -/
  stack : List Word
  /-- the delay timer DT (R28) -/
  dt : Byte
  /-- the sound timer ST (R28) -/
  st : Byte
  /-- the 4096 bytes of memory (R60) -/
  mem : Memory
  /-- the display buffer (R29) -/
  disp : Display
  /-- the input latch: key k is down (R30) -/
  key : Vector Bool 16
  /-- the level of the audio trigger (R31) -/
  audioOn : Bool
  /-- Running or Stopped (R33) -/
  status : Status
  deriving DecidableEq, Repr

/-- What stands beside the CORE's state, the model's own (R20 and R35 say that none of it is CORE state): the step takes all its
arguments from one value, so the configuration, the environment's coming inputs and the outputs so far stand here. -/
structure Surroundings where
  /-- the `P_` parameters the model takes as an argument (R9; log entry 5) -/
  params : Params
  /-- how many random bytes were drawn (R261; log entry 6) -/
  draws : Nat
  /-- the coming transactions, the next first; none listed means a cycle step (R250; log entry 4) -/
  sched : List Event
  /-- the audio signals emitted so far, oldest first (R240, R241; log entry 7) -/
  audioOut : List AudioSignal
  deriving DecidableEq, Repr

/-- What a step takes and answers: the CORE's state and what stands beside it. -/
structure State extends CoreState, Surroundings
  deriving DecidableEq, Repr

/-- Why a step cannot be taken. -/
inductive Fault where
  /-- raised by `serve` when a cycle tick, timer tick or key event would be served in `Stopped`: no such step exists
  (R232, R235, R250); it carries the stop. Safe: the machine is stuck there, as 93_implementation_defined.md U20 says. -/
  | stopped (stop : Stop)
  deriving DecidableEq, Repr

/-- Why an instruction has no meaning. -/
inductive Refusal where
  /-- raised by an arm of `exec` whose instruction has no meaning yet (none is left); safe -/
  | notModelled (mnemonic : String)
  deriving DecidableEq, Repr

/-- What an instruction's meaning answers. -/
abbrev Result := Host.Outcome State Fault Refusal

/-- The machine right after reset with no program loaded (R280, R281 with a zero-length image, R66). -/
def State.reset : State :=
  { v := Vector.replicate 16 0
    i := 0
    pc := 0x200
    stack := []
    dt := 0
    st := 0
    mem := []
    disp := Vector.replicate 64 (Vector.replicate 32 false)
    key := Vector.replicate 16 false
    audioOn := false
    status := .running
    params := defaultParams
    draws := 0
    sched := []
    audioOut := [] }

end Sys2Proof.Machine
end

