-- ==== Sys2Proof/Machine/Ops.lean ====
section
/-! DEFINITION. The named operations over memory, registers, the stack and the run state; raising a stop, which is what
taking an exception is on this hardware (60_exceptions.md R232). -/

namespace Sys2Proof.Machine

/-! ## Memory (20_memory.md) -/

/-- The byte at an address (R14): the listed one, else the reset content (R73). -/
def Memory.read : Memory → Nat → Byte
  | [], a => resetByte a
  | c :: rest, a => if c.1 = a then c.2 else Memory.read rest a

/-- The memory without its entries at an address. -/
def Memory.erase (m : Memory) (a : Nat) : Memory := m.filter fun c => c.1 != a

/-- A byte entered at its place among rising addresses. -/
def Memory.insert (a : Nat) (x : Byte) : Memory → Memory
  | [] => [(a, x)]
  | c :: rest => if a < c.1 then (a, x) :: c :: rest else c :: Memory.insert a x rest

/-- One byte stored (R14). A byte equal to the reset content is not listed, so equal memories are equal lists. -/
def Memory.write (m : Memory) (a : Nat) (x : Byte) : Memory :=
  if x = resetByte a then Memory.erase m a else Memory.insert a x (Memory.erase m a)

/-- Bytes stored at rising addresses from `a` on. -/
def Memory.writeList : Memory → Nat → List Byte → Memory
  | m, _, [] => m
  | m, a, x :: xs => Memory.writeList (Memory.write m a x) (a + 1) xs

/-- The `n` bytes at rising addresses from `a` on. -/
def Memory.readList (m : Memory) (a n : Nat) : List Byte := (List.range n).map fun k => Memory.read m (a + k)

/-- The canonical form: addresses strictly rising and inside memory, no entry equal to the reset content. -/
abbrev Memory.wf (m : Memory) : Prop :=
  m.Pairwise (fun c d => c.1 < d.1) ∧ ∀ c ∈ m, c.1 < memSize ∧ c.2 ≠ resetByte c.1

/-! ## Field updates -/

/-- `V[r] <- b` (R13). -/
def State.setV (s : State) (r : Reg) (b : Byte) : State := { s with v := s.v.set r.val b r.isLt }
/-- the whole register file replaced -/
def State.setRegs (s : State) (v : Vector Byte 16) : State := { s with v := v }
/-- `I <- w` (R13). -/
def State.setI (s : State) (w : Word) : State := { s with i := w }
/-- `pc <- w` (R13). -/
def State.setPc (s : State) (w : Word) : State := { s with pc := w }
/-- the call stack replaced -/
def State.setStack (s : State) (l : List Word) : State := { s with stack := l }
/-- `DT <- b` (R13). -/
def State.setDT (s : State) (b : Byte) : State := { s with dt := b }
/-- `ST <- b` (R13). -/
def State.setST (s : State) (b : Byte) : State := { s with st := b }
/-- memory replaced -/
def State.setMem (s : State) (m : Memory) : State := { s with mem := m }
/-- the display buffer replaced -/
def State.setDisp (s : State) (d : Display) : State := { s with disp := d }
/-- `key[k] <- down` (R13). -/
def State.setKey (s : State) (k : Key) (down : Bool) : State := { s with key := s.key.set k.val down k.isLt }
/-- `audio_on <- level` (R240). -/
def State.setAudio (s : State) (level : Bool) : State := { s with audioOn := level }
/-- `status <- st` (R232). -/
def State.setStatus (s : State) (st : Status) : State := { s with status := st }
/-- the count of random draws replaced -/
def State.setDraws (s : State) (n : Nat) : State := { s with draws := n }
/-- the coming transactions replaced -/
def State.setSched (s : State) (l : List Event) : State := { s with sched := l }
/-- `emit Audio(sig)` (R15). -/
def State.emit (s : State) (sig : AudioSignal) : State := { s with audioOut := s.audioOut ++ [sig] }

/-! ## Reads -/

/-- `V[r]` (R13). -/
def State.readV (s : State) (r : Reg) : Byte := s.v[r.val]'r.isLt
/-- `MemRead(a, 1)` for an address inside memory (R14). -/
def State.readMem (s : State) (a : Nat) : Byte := Memory.read s.mem a
/-- `key[k]` (R13). -/
def State.readKey (s : State) (k : Key) : Bool := s.key[k.val]'k.isLt
/-- The display as the host renderer sees it (R180). -/
def State.snapshot (s : State) : Display := s.disp

/-! ## Stops -/

/-- The code of a stop reason (R231, the spec's own numbering D30). -/
def StopReason.code : StopReason → Nat
  | .stackUnderflow => 1
  | .stackOverflow => 2
  | .memoryBounds => 3
  | .keyIndex => 4
  | .illegalEncoding => 5
  | .reservedWrite => 6
  | .indexOverflow => 7

/-- `raise Stop(reason, info)`: sets `status` and changes nothing else (R15, R232). There is no return from it (R235). -/
def raiseStop (reason : StopReason) (info : Nat) (s : State) : State := s.setStatus (.stopped ⟨reason, info⟩)

/-- The address `a` of the instruction being executed: PC is `a + 2` by then (R16, R25). -/
def instrAddr (s : State) : Nat := (s.pc - 2).toNat

/-- The check of an address that is read (R71). -/
def checkRead (a : Nat) : Option Stop := if memSize ≤ a then some ⟨.memoryBounds, a⟩ else none

/-- The check of an address that is written (R71, and R62 under P_RESERVED_STORE = fault). -/
def checkWrite (p : Params) (a : Nat) : Option Stop :=
  if memSize ≤ a then some ⟨.memoryBounds, a⟩
  else if a < reservedEnd ∧ p.reservedStore = .fault then some ⟨.reservedWrite, a⟩
  else none

/-- The checks of the `n` addresses from `base` on, before any write: the lowest failing address names the stop (R71,
42_index_memory.md). -/
def checkRange (check : Nat → Option Stop) (base n : Nat) : Option Stop :=
  (List.range n).findSome? fun k => check (base + k)

/-- The rest of an instruction if every check passed, else the stop (R233). -/
def unlessStop (failed : Option Stop) (s : State) (go : State) : State :=
  match failed with
  | some stop => raiseStop stop.reason stop.info s
  | none => go

/-! ## PC and the fetch (40_control.md) -/

/-- A skip (R105). -/
def skip (s : State) : State := s.setPc (s.pc + 2)

/-- A skip if the condition holds (R105). -/
def skipIf (taken : Bool) (s : State) : State := if taken then skip s else s

/-- Whether the fetch at `pc` stops: `pc + 1 >= 4096` (R65). -/
def fetchFails (pc : Word) : Bool := memSize ≤ pc.toNat + 1

/-- `Fetch(pc)`: the two bytes at `pc` and `pc + 1`, the first the high byte (R65, R67). -/
def fetchWord (s : State) (pc : Word) : Word := bigEndian (s.readMem pc.toNat) (s.readMem (pc.toNat + 1))

/-- The PC advance of a fetch (R100). -/
def advance (s : State) : State := s.setPc (s.pc + 2)

/-! ## The random source -/

/-- `draw_random()` (R15, R261): the next free byte. -/
def randomDraw (s : State) : Byte := Config.randomByte s.draws
/-- The state after one draw: the next draw is another one. -/
def countDraw (s : State) : State := s.setDraws (s.draws + 1)

end Sys2Proof.Machine
end

