-- ==== Sys2Proof/Machine/Operands.lean ====
section
/-! DEFINITION. The operand forms: zero extension (R82), the key index (R206), the keys in order (R202), BCD digits (R163),
the font address (R162), sprite coordinates (R182), and the register block V0..Vx (R164, R165). -/

namespace Sys2Proof.Machine

/-- `zext_16(nnn)` (R12, R82). -/
def zext16 (nnn : Imm12) : Word := nnn.setWidth 16

/-- Key index resolution (R206): none is the stop of P_KEY_INDEX = fault. -/
def keyIndex (p : Params) (b : Byte) : Option Key :=
  if h : b.toNat < 16 then some ⟨b.toNat, h⟩
  else match p.keyIndex with
    | .fault => none
    | .mask => some ⟨b.toNat % 16, Nat.mod_lt _ (by decide)⟩

/-- The keys in rising order. -/
def allKeys : List Key := [0, 1, 2, 3, 4, 5, 6, 7, 8, 9, 10, 11, 12, 13, 14, 15]

/-- `key_first_down()`: the lowest key that is down (R15, R202). -/
def keyFirstDown (s : State) : Option Key := allKeys.find? fun k => s.readKey k

/-- The key number as the byte `LD Vx, K` stores (R202). -/
def keyByte (k : Key) : Byte := BitVec.ofNat 8 k.val

/-- Hundreds, tens and units of a byte (R163). -/
def bcdDigits (b : Byte) : List Byte :=
  [BitVec.ofNat 8 (b.toNat / 100), BitVec.ofNat 8 (b.toNat / 10 % 10), BitVec.ofNat 8 (b.toNat % 10)]

/-- `FONT_BASE + 5 * V[x]`, with no mask of V[x] (R162). -/
def fontAddress (b : Byte) : Word := BitVec.ofNat 16 (fontBase + glyphBytes * b.toNat)

/-- The start column of a sprite (R182). -/
def startColumn (b : Byte) : Nat := b.toNat % displayW
/-- The start row of a sprite (R182). -/
def startRow (b : Byte) : Nat := b.toNat % displayH

/-- The bytes of the block V0..Vx (R164). -/
def regBlock (s : State) (x : Reg) : List Byte := s.v.toList.take (x.val + 1)

/-- `V[i] <- MemRead(base + i, 1)` for i in 0..n-1, ascending (R165). -/
def loadBlock (m : Memory) (base : Nat) : Nat → Vector Byte 16 → Vector Byte 16
  | 0, v => v
  | n + 1, v => (loadBlock m base n v).setIfInBounds n (Memory.read m (base + n))

end Sys2Proof.Machine
end

