-- ==== Sys2Proof/Machine/Flags.lean ====
section
/-! DEFINITION. The results and flags of the 8XY_ instructions (41_alu.md): computed exactly on naturals or integers, then
narrowed (R136), and the order of the two writes (R137). -/

namespace Sys2Proof.Machine

/-- A flag as the byte VF receives (R23). -/
def flagByte (flag : Bool) : Byte := if flag then 1 else 0

/-- `(vx + vy) mod 256` (R136, R138). -/
def addResult (vx vy : Byte) : Byte := BitVec.ofNat 8 (vx.toNat + vy.toNat)
/-- Carry: `vx + vy > 255` (R138). -/
def addFlag (vx vy : Byte) : Bool := 255 < vx.toNat + vy.toNat

/-- `(vx - vy) mod 256`, a negative value reduced by adding 256 (R136, R139). -/
def subResult (vx vy : Byte) : Byte := BitVec.ofInt 8 ((vx.toNat : Int) - (vy.toNat : Int))
/-- No borrow: `vx >= vy` (R139). -/
def subFlag (vx vy : Byte) : Bool := vy.toNat ≤ vx.toNat

/-- `vx >> 1`, logical (R140). -/
def shrResult (vx : Byte) : Byte := vx >>> 1
/-- The bit shifted out on the right, bit 0 (R140). -/
def shrFlag (vx : Byte) : Bool := vx.getLsbD 0

/-- `(vx << 1) mod 256` (R142). -/
def shlResult (vx : Byte) : Byte := vx <<< 1
/-- The bit shifted out on the left, bit 7 (R142). -/
def shlFlag (vx : Byte) : Bool := vx.getLsbD 7

/-- The writes of result and flag, in the order P_VF_ORDER sets (R137). -/
def writeResultFlag (x : Reg) (result : Byte) (flag : Bool) (s : State) : State :=
  match s.params.vfOrder with
  | .flagLast => (s.setV x result).setV VF (flagByte flag)
  | .resultLast => (s.setV VF (flagByte flag)).setV x result

end Sys2Proof.Machine
end

