-- ==== Sys2Proof/Machine/Devices.lean ====
section
/-! DEFINITION. The steps that are not cycle steps (60_exceptions.md): the timer tick and the host's key event, and the
program load that completes reset (70_reset_and_hazards.md R281). -/

namespace Sys2Proof.Machine

/-! ## The timer tick (R240), in the order of its pseudocode -/

/-- `if DT > 0 then DT <- DT - 1`. -/
def tickDelay (s : State) : State := if s.dt = 0 then s else s.setDT (s.dt - 1)

/-- `if s0 > 0 and audio_on = 0 then (emit Audio(start); audio_on <- 1)`. -/
def tickStart (s : State) : State :=
  if s.st ≠ 0 ∧ s.audioOn = false then (s.emit .start).setAudio true else s

/-- `if s0 > 0 then ST <- s0 - 1`. -/
def tickSound (s : State) : State := if s.st = 0 then s else s.setST (s.st - 1)

/-- `if ST = 0 and audio_on = 1 then (emit Audio(stop); audio_on <- 0)`. -/
def tickStop (s : State) : State :=
  if s.st = 0 ∧ s.audioOn = true then (s.emit .stop).setAudio false else s

/-- `tick_timers()` (R240). -/
def tickTimers (s : State) : State := tickStop (tickSound (tickStart (tickDelay s)))

/-! ## The host side of the input latch (R245) -/

/-- The host's `set(k, down)`. -/
def hostSetKey (k : Key) (down : Bool) (s : State) : State := s.setKey k down

/-! ## Program load (R281) -/

/-- Why a program does not load. -/
inductive LoadError where
  /-- the image is longer than `PROG_MAX`: execution never starts (R267); raised by `boot`, safe -/
  | tooLarge
  deriving DecidableEq, Repr

/-- The registers' values at reset (R280): 0, and under P_RESET_VALUES = unwritten a free value for each of V0..VF, I, DT and ST,
for which the spec then states none (log entry 9). -/
def resetRegisters (r : ResetValues) (s : State) : State :=
  match r with
  | .zero => s
  | .unwritten =>
    (((s.setRegs (Vector.ofFn fun r => Config.unwrittenByte r.val)).setI Config.unwrittenIndex).setDT
      (Config.unwrittenByte 16)).setST (Config.unwrittenByte 17)

/-- The state after reset under given parameters, font image and program image (R280, R281, R66). -/
def boot (p : Params) (font : Vector Byte 80) (image : List Byte) : Except LoadError State :=
  if progMax < image.length then .error .tooLarge
  else .ok (resetRegisters p.resetValues { State.reset with
    params := p
    mem := Memory.writeList (Memory.writeList [] fontBase font.toList) progBase image })

end Sys2Proof.Machine
end

