-- ==== Sys2Proof/Machine/Alu.lean ====
section
/-! DEFINITION. 41_alu.md: immediates, register-register logic and arithmetic, shifts and random. -/

namespace Sys2Proof.Machine

/-- LD Vx, nn (R130). -/
def execLdImm (x : Reg) (nn : Byte) (s : State) : Result := .next (s.setV x nn)

/-- ADD Vx, nn: wraps, writes no flag (R131). -/
def execAddImm (x : Reg) (nn : Byte) (s : State) : Result := .next (s.setV x (addResult (s.readV x) nn))

/-- LD Vx, Vy (R132). -/
def execLdReg (x y : Reg) (s : State) : Result := .next (s.setV x (s.readV y))

/-- OR Vx, Vy (R133). -/
def execOrReg (x y : Reg) (s : State) : Result := .next (s.setV x (s.readV x ||| s.readV y))

/-- AND Vx, Vy (R134). -/
def execAndReg (x y : Reg) (s : State) : Result := .next (s.setV x (s.readV x &&& s.readV y))

/-- XOR Vx, Vy (R135). -/
def execXorReg (x y : Reg) (s : State) : Result := .next (s.setV x (s.readV x ^^^ s.readV y))

/-- ADD Vx, Vy (R138). -/
def execAddReg (x y : Reg) (s : State) : Result :=
  .next (writeResultFlag x (addResult (s.readV x) (s.readV y)) (addFlag (s.readV x) (s.readV y)) s)

/-- SUB Vx, Vy: Vx - Vy (R139). -/
def execSub (x y : Reg) (s : State) : Result :=
  .next (writeResultFlag x (subResult (s.readV x) (s.readV y)) (subFlag (s.readV x) (s.readV y)) s)

/-- SHR Vx: Vy is not read (R140). -/
def execShr (x _y : Reg) (s : State) : Result :=
  .next (writeResultFlag x (shrResult (s.readV x)) (shrFlag (s.readV x)) s)

/-- SUBN Vx, Vy: Vy - Vx (R141). -/
def execSubn (x y : Reg) (s : State) : Result :=
  .next (writeResultFlag x (subResult (s.readV y) (s.readV x)) (subFlag (s.readV y) (s.readV x)) s)

/-- SHL Vx: Vy is not read (R142). -/
def execShl (x _y : Reg) (s : State) : Result :=
  .next (writeResultFlag x (shlResult (s.readV x)) (shlFlag (s.readV x)) s)

/-- RND Vx, nn: a free byte, masked (R143, R261). -/
def execRnd (x : Reg) (nn : Byte) (s : State) : Result := .next ((countDraw s).setV x (randomDraw s &&& nn))

end Sys2Proof.Machine
end

