-- ==== Sys2Proof/Machine/Control.lean ====
section
/-! DEFINITION. 40_control.md: SYS, the unrecognized no-op, RET, JP, CALL, the skips and JP V0. Every meaning starts from
the state after the fetch advance: PC is the instruction's address plus 2 (R16, R100). -/

namespace Sys2Proof.Machine

/-- SYS nnn: no operation (R101). -/
def execSys (_nnn : Imm12) (s : State) : Result := .next s

/-- An unrecognized opcode: no operation (R112). -/
def execUnrecognized (_w : Word) (s : State) : Result := .next s

/-- RET (R102). -/
def execRet (s : State) : Result :=
  match s.stack.getLast? with
  | none => .next (raiseStop .stackUnderflow (instrAddr s) s)
  | some top => .next ((s.setPc top).setStack s.stack.dropLast)

/-- JP nnn (R103). -/
def execJp (nnn : Imm12) (s : State) : Result := .next (s.setPc (zext16 nnn))

/-- CALL nnn: pushes PC, which is the return address (R104). -/
def execCall (nnn : Imm12) (s : State) : Result :=
  if stackDepth ≤ s.stack.length then .next (raiseStop .stackOverflow (instrAddr s) s)
  else .next ((s.setStack (s.stack ++ [s.pc])).setPc (zext16 nnn))

/-- SE Vx, nn (R106). -/
def execSeImm (x : Reg) (nn : Byte) (s : State) : Result := .next (skipIf (s.readV x == nn) s)

/-- SNE Vx, nn (R107). -/
def execSneImm (x : Reg) (nn : Byte) (s : State) : Result := .next (skipIf (s.readV x != nn) s)

/-- SE Vx, Vy (R108). -/
def execSeReg (x y : Reg) (s : State) : Result := .next (skipIf (s.readV x == s.readV y) s)

/-- SNE Vx, Vy (R109). -/
def execSneReg (x y : Reg) (s : State) : Result := .next (skipIf (s.readV x != s.readV y) s)

/-- What P_SKIP_LOW_NIBBLE makes of a skip word with `n ≠ 0` (R86, R110). -/
def lowNibbleSkip (taken : Bool) (s : State) : State :=
  match s.params.skipLowNibble with
  | .noop => s
  | .ignore => skipIf taken s
  | .fault => raiseStop .illegalEncoding (instrAddr s) s

/-- `5XYN`, n ≠ 0 (R110). -/
def execSeRegN (x y : Reg) (_n : Nibble) (s : State) : Result :=
  .next (lowNibbleSkip (s.readV x == s.readV y) s)

/-- `9XYN`, n ≠ 0 (R110). -/
def execSneRegN (x y : Reg) (_n : Nibble) (s : State) : Result :=
  .next (lowNibbleSkip (s.readV x != s.readV y) s)

/-- JP V0, nnn: the sum is not masked to 12 bits (R111). -/
def execJpV0 (nnn : Imm12) (s : State) : Result := .next (s.setPc (zext16 nnn + (s.readV 0).setWidth 16))

end Sys2Proof.Machine
end

