-- ==== Sys2Proof/Machine/Display.lean ====
section
/-! DEFINITION. 43_display.md: the display engine and CLS and DRW. -/

namespace Sys2Proof.Machine

/-- `disp[px][py]`; there is no pixel off the grid (R29). -/
def Display.pixel (d : Display) (px py : Nat) : Bool :=
  if h : px < displayW ∧ py < displayH then (d[px]'h.1)[py]'h.2 else false

/-- `disp[px][py] <- disp[px][py] ^ 1` (R182). -/
def Display.flip (d : Display) (px py : Nat) : Display :=
  if h : px < displayW ∧ py < displayH then d.set px ((d[px]'h.1).set py (!((d[px]'h.1)[py]'h.2)) h.2) h.1 else d

/-- `clear()`: every pixel 0 (R180, R181). -/
def Display.clear : Display := Vector.replicate 64 (Vector.replicate 32 false)

/-- Sprite bit `b` of a row byte, bit 0 being the MSB (R182). -/
def spriteBit (row : Byte) (b : Nat) : Bool := row.getLsbD (7 - b)

/-- The inner loop's body (R182): the grid and the collision bit after column `b` of the row drawn at `py`. Pixels past the
right or bottom edge are dropped. -/
def blitPixel (x0 py : Nat) (row : Byte) (dc : Display × Bool) (b : Nat) : Display × Bool :=
  if py < displayH ∧ x0 + b < displayW ∧ spriteBit row b then
    (Display.flip dc.1 (x0 + b) py, dc.2 || Display.pixel dc.1 (x0 + b) py)
  else dc

/-- One row of a sprite: its columns 0 to 7 in order (R182). -/
def blitRow (x0 py : Nat) (row : Byte) (dc : Display × Bool) : Display × Bool :=
  (List.range 8).foldl (blitPixel x0 py row) dc

/-- `draw(x, y, rows)`: the rows drawn from row `py` on (R180, R182). -/
def blit (x0 : Nat) : Nat → List Byte → Display × Bool → Display × Bool
  | _, [], dc => dc
  | py, row :: rows, dc => blit x0 (py + 1) rows (blitRow x0 py row dc)

/-- CLS (R181). -/
def execCls (s : State) : Result := .next (s.setDisp Display.clear)

/-- The grid and the collision bit DRW computes: every byte is read before the blit begins (R180, R182). -/
def drawSprite (x y : Reg) (n : Nibble) (s : State) : Display × Bool :=
  blit (startColumn (s.readV x)) (startRow (s.readV y)) (Memory.readList s.mem s.i.toNat n.toNat) (s.disp, false)

/-- DRW Vx, Vy, n (R182). -/
def execDrw (x y : Reg) (n : Nibble) (s : State) : Result :=
  .next (unlessStop (checkRange checkRead s.i.toNat n.toNat) s
    ((s.setDisp (drawSprite x y n s).1).setV VF (flagByte (drawSprite x y n s).2)))

end Sys2Proof.Machine
end

