-- ==== Sys2Proof/Machine/IndexMemory.lean ====
section
/-! DEFINITION. 42_index_memory.md: the instructions that write I or move data between registers and memory. Every address
is checked before the first write; I is never changed by a memory access. -/

namespace Sys2Proof.Machine

/-- LD I, nnn (R160). -/
def execLdI (nnn : Imm12) (s : State) : Result := .next (s.setI (zext16 nnn))

/-- ADD I, Vx: VF is not written (R161). -/
def execAddI (x : Reg) (s : State) : Result :=
  let sum := s.i.toNat + (s.readV x).toNat
  if 65536 ≤ sum ∧ s.params.iOverflow = .fault then .next (raiseStop .indexOverflow (instrAddr s) s)
  else .next (s.setI (BitVec.ofNat 16 sum))

/-- LD F, Vx (R162). -/
def execLdF (x : Reg) (s : State) : Result := .next (s.setI (fontAddress (s.readV x)))

/-- LD B, Vx (R163). -/
def execLdB (x : Reg) (s : State) : Result :=
  .next (unlessStop (checkRange (checkWrite s.params) s.i.toNat 3) s
    (s.setMem (Memory.writeList s.mem s.i.toNat (bcdDigits (s.readV x)))))

/-- LD [I], Vx (R164). -/
def execLdMemRegs (x : Reg) (s : State) : Result :=
  .next (unlessStop (checkRange (checkWrite s.params) s.i.toNat (x.val + 1)) s
    (s.setMem (Memory.writeList s.mem s.i.toNat (regBlock s x))))

/-- LD Vx, [I] (R165). -/
def execLdRegsMem (x : Reg) (s : State) : Result :=
  .next (unlessStop (checkRange checkRead s.i.toNat (x.val + 1)) s
    (s.setRegs (loadBlock s.mem s.i.toNat (x.val + 1) s.v)))

end Sys2Proof.Machine
end

