-- ==== Sys2Proof/Machine/Input.lean ====
section
/-! DEFINITION. 44_input_timers.md: the key skips, the wait for a key and the timer moves. -/

namespace Sys2Proof.Machine

/-- A skip on the latch of the key V[x] names: taken when its bit equals `down`; the latch is only read (R200, R201, R206). -/
def keySkip (x : Reg) (down : Bool) (s : State) : State :=
  match keyIndex s.params (s.readV x) with
  | some k => skipIf (s.readKey k == down) s
  | none => raiseStop .keyIndex (instrAddr s) s

/-- SKP Vx (R200). -/
def execSkp (x : Reg) (s : State) : Result := .next (keySkip x true s)

/-- SKNP Vx (R201). -/
def execSknp (x : Reg) (s : State) : Result := .next (keySkip x false s)

/-- LD Vx, K: takes the lowest key down, or rewinds PC by 2 (R202). -/
def execLdK (x : Reg) (s : State) : Result :=
  match keyFirstDown s with
  | some k => .next ((s.setV x (keyByte k)).setKey k false)
  | none => .next (s.setPc (s.pc - 2))

/-- LD Vx, DT (R203). -/
def execLdVxDT (x : Reg) (s : State) : Result := .next (s.setV x s.dt)

/-- LD DT, Vx (R204). -/
def execLdDTVx (x : Reg) (s : State) : Result := .next (s.setDT (s.readV x))

/-- LD ST, Vx: signals nothing itself (R205). -/
def execLdSTVx (x : Reg) (s : State) : Result := .next (s.setST (s.readV x))

end Sys2Proof.Machine
end

