-- ==== Sys2Proof/Machine/Cycle.lean ====
section
/-! DEFINITION. The cycle step (40_control.md R100) and the serving of one transaction (60_exceptions.md R250). -/

namespace Sys2Proof.Machine

/-- `execute_one_cycle()` (R100): the fetch, the PC advance before dispatch, the decode and the execution. A fetch out of
range stops and changes nothing else (R65). -/
def cycleStep (s : State) : Result :=
  if fetchFails s.pc then .next (raiseStop .memoryBounds s.pc.toNat s)
  else exec (decodeWord (fetchWord s s.pc)) (advance s)

/-- One transaction served while `Running` (R250, R262). -/
def serveRunning (e : Event) (s : State) : Result :=
  match e with
  | .cycle => cycleStep s
  | .timerTick => .next (tickTimers s)
  | .key k down => .next (hostSetKey k down s)
  | .snapshot => .next s

/-- One transaction served while `Stopped`: only snapshot reads remain (R232, R250). -/
def serveStopped (e : Event) (stop : Stop) (s : State) : Result :=
  match e with
  | .cycle => .fault (.stopped stop)
  | .timerTick => .fault (.stopped stop)
  | .key _ _ => .fault (.stopped stop)
  | .snapshot => .next s

/-- One indivisible step of the CORE (R250, R251). -/
def serve (e : Event) (s : State) : Result :=
  match s.status with
  | .running => serveRunning e s
  | .stopped stop => serveStopped e stop s

/-- Transactions served one after the other, to the first one that cannot be. -/
def serveAll : List Event → State → Result
  | [], s => .next s
  | e :: es, s =>
    match serve e s with
    | .next t => serveAll es t
    | .fault f => .fault f
    | .refused r => .refused r

/-- The transaction the next step serves: the first of the coming ones, a cycle tick where none is listed (R250). -/
def nextEvent (s : State) : Event := s.sched.headD .cycle

/-- The state in which the next transaction is served: it no longer comes. -/
def takeEvent (s : State) : State := s.setSched s.sched.tail

/-- `s` with the instruction word `w`, stored big-endian, where the next cycle step fetches, and made ready to run it (a PC
from which the fetch stops has no place for it). -/
def placeFetchWord (s : State) (w : Word) : State :=
  ((s.setMem (if fetchFails s.pc then s.mem
    else Memory.writeList s.mem s.pc.toNat [highByte w, lowByte w])).setStatus .running).setSched []

end Sys2Proof.Machine
end

