-- ==== Sys2Proof/Machine/Step.lean ====
section
/-! DEFINITION. The step function, and the placing of an instruction where it fetches. -/

namespace Sys2Proof.Machine

/-- One step: the next transaction of the schedule, served (R250). -/
def step (s : State) : Host.Outcome State Fault Refusal := serve (nextEvent s) (takeEvent s)

/-- `s` with an instruction placed so that the very next step fetches and runs it: its two bytes at PC, nothing else coming
first, and the engine running. The bits above 16 have no place in this hardware (R89). -/
def State.withFetchWord (s : State) (_nbits w : Nat) : State := placeFetchWord s (BitVec.ofNat 16 w)

end Sys2Proof.Machine
end

