-- ==== Sys2Proof/Safety.lean ====
section
/-! DEFINITION. The terms the claims use: the invariant of the machine and what a run is. -/

namespace Sys2Proof.Machine

/-- The level the audio trigger has after a list of signals, from a given level: `start` and `stop` alternate (R241), so a
`start` while on, or a `stop` while off, has no level. -/
def audioLevelAfter : Bool → List AudioSignal → Option Bool
  | level, [] => some level
  | false, .start :: rest => audioLevelAfter true rest
  | true, .stop :: rest => audioLevelAfter false rest
  | true, .start :: _ => none
  | false, .stop :: _ => none

/-- What a recorded stop looks like: a failing byte address is one that fails, an instruction address is a word (R231). -/
def Stop.wf (stop : Stop) : Prop :=
  match stop.reason with
  | .memoryBounds => 0x0FFF ≤ stop.info
  | .reservedWrite => stop.info < reservedEnd
  | .stackUnderflow => stop.info < 65536
  | .stackOverflow => stop.info < 65536
  | .keyIndex => stop.info < 65536
  | .illegalEncoding => stop.info < 65536
  | .indexOverflow => stop.info < 65536

/-- The invariant: memory has its canonical form (and no byte outside the 4096, R60), the stack is within its depth (R27),
the audio signals alternate starting with start and end at the level `audio_on` (R241), and a recorded stop names what its reason
says (R231). -/
structure Inv (s : State) : Prop where
  memory : Memory.wf s.mem
  depth : s.stack.length ≤ stackDepth
  audio : audioLevelAfter false s.audioOut = some s.audioOn
  stopInfo : ∀ stop, s.status = .stopped stop → Stop.wf stop

/-- The state `t` is reached from `s` in `n` steps. -/
def ReachesIn (n : Nat) (s t : State) : Prop := Host.Core.run Sys2Proof.core n s = .next t

/-- A safe run: after `n` steps the engine has not stopped. -/
def SafeRun (n : Nat) (s : State) : Prop := ∃ t, ReachesIn n s t ∧ t.status = .running

/-- `i` runs to a next state in which register `x` holds `b`; every other register and all the rest of the state is as before. -/
def WritesReg (i : Instr) (s : State) (x : Reg) (b : Byte) : Prop :=
  ∃ t, exec i s = .next t ∧ t = { s with v := t.v } ∧ ∀ r, t.readV r = if r = x then b else s.readV r

/-- `i` runs to a next state in which VF holds 1 or 0 as `flag` says and, where it is not VF itself, register `x` holds `result`;
every other register and all the rest of the state is as before. -/
def WritesRegAndFlag (i : Instr) (s : State) (x : Reg) (result : Byte) (flag : Bool) : Prop :=
  ∃ t, exec i s = .next t ∧ t = { s with v := t.v } ∧
    ∀ r, t.readV r = if r = VF then (if flag then 1 else 0) else if r = x then result else s.readV r

/-- A set bit of a DRW sprite falls on the pixel (the `drawn(r, b)` of R183): row `r` of the sprite is the byte at `I + r`, its
column 0 the byte's bit 7, and the start point is reduced mod 64 and mod 32 (R182). -/
def DrawnAt (s : State) (x y : Reg) (n : Nibble) (px py : Nat) : Prop :=
  ∃ r b, r < n.toNat ∧ b < 8 ∧ px = (s.readV x).toNat % 64 + b ∧ py = (s.readV y).toNat % 32 + r ∧
    (s.readMem (s.i.toNat + r)).getLsbD (7 - b) = true

/-- The addresses DRW reads are inside memory (R182): none for `n = 0`. -/
def SpriteInRange (s : State) (n : Nibble) : Prop := n = 0 ∨ s.i.toNat + n.toNat ≤ 4096

/-- The `n` addresses from I on may be stored to: inside memory (R71) and, where P_RESERVED_STORE = fault, not reserved (R62). -/
def StoreInRange (s : State) (n : Nat) : Prop :=
  s.i.toNat + n ≤ 4096 ∧ (0x200 ≤ s.i.toNat ∨ s.params.reservedStore = .store)

/-- The byte at `a` after bytes `0` to `n - 1` of `b` were stored at I, I+1, … (R14, R73). -/
def byteAfterStore (s : State) (n : Nat) (b : Nat → Byte) (a : Nat) : Byte :=
  if s.i.toNat ≤ a ∧ a < s.i.toNat + n then b (a - s.i.toNat) else s.readMem a

/-- The byte LD B stores at I + k: hundreds, tens, units (R163). -/
def digitByte (b : Byte) (k : Nat) : Byte :=
  BitVec.ofNat 8 (if k = 0 then b.toNat / 100 else if k = 1 then b.toNat / 10 % 10 else b.toNat % 10)

/-- `i` stops with a reason and an info, and changes nothing else (R232, R233). -/
def StopsWith (i : Instr) (s : State) (reason : StopReason) (info : Nat) : Prop :=
  exec i s = .next { s with status := .stopped ⟨reason, info⟩ }

/-- What R231 says of a stop of instruction `i` in state `s`, whose PC is its address plus 2. -/
def StopExplained (i : Instr) (s : State) (stop : Stop) : Prop :=
  match stop.reason with
  | .stackUnderflow => i = .ret ∧ s.stack = [] ∧ stop.info = (s.pc - 2).toNat
  | .stackOverflow => (∃ nnn, i = .call nnn) ∧ 16 ≤ s.stack.length ∧ stop.info = (s.pc - 2).toNat
  | .memoryBounds =>
    ((∃ x y n, i = .drw x y n) ∨ (∃ x, i = .ldB x ∨ i = .ldMemRegs x ∨ i = .ldRegsMem x)) ∧
      4096 ≤ stop.info ∧ s.i.toNat ≤ stop.info ∧ stop.info < s.i.toNat + 16
  | .keyIndex =>
    (∃ x, (i = .skp x ∨ i = .sknp x) ∧ 0x0F < (s.readV x).toNat) ∧ s.params.keyIndex = .fault ∧
      stop.info = (s.pc - 2).toNat
  | .illegalEncoding =>
    (∃ x y n, i = .seRegN x y n ∨ i = .sneRegN x y n) ∧ s.params.skipLowNibble = .fault ∧ stop.info = (s.pc - 2).toNat
  | .reservedWrite =>
    (∃ x, i = .ldB x ∨ i = .ldMemRegs x) ∧ s.params.reservedStore = .fault ∧ stop.info = s.i.toNat ∧ s.i.toNat < 0x200
  | .indexOverflow =>
    (∃ x, i = .addI x ∧ 65536 ≤ s.i.toNat + (s.readV x).toNat) ∧ s.params.iOverflow = .fault ∧
      stop.info = (s.pc - 2).toNat

end Sys2Proof.Machine

namespace Sys2Proof

/-- An instruction that writes PC beyond the fetch advance (R26). -/
def Instr.writesPc : Instr → Bool
  | .ret | .jp _ | .call _ | .seImm _ _ | .sneImm _ _ | .seReg _ _ | .seRegN _ _ _ | .sneReg _ _ | .sneRegN _ _ _
  | .jpV0 _ | .skp _ | .sknp _ | .ldK _ => true
  | .cls | .sys _ | .ldImm _ _ | .addImm _ _ | .ldReg _ _ | .orReg _ _ | .andReg _ _ | .xorReg _ _ | .addReg _ _
  | .sub _ _ | .shr _ _ | .subn _ _ | .shl _ _ | .ldI _ | .rnd _ _ | .drw _ _ _ | .ldVxDT _ | .ldDTVx _ | .ldSTVx _
  | .addI _ | .ldF _ | .ldB _ | .ldMemRegs _ | .ldRegsMem _ | .unrecognized _ => false

/-- The general registers an instruction may write: its destination, and VF where R23 names it as the flag. -/
def Instr.writesReg (i : Instr) (r : Reg) : Bool :=
  match i with
  | .ldImm x _ | .addImm x _ | .ldReg x _ | .orReg x _ | .andReg x _ | .xorReg x _ | .rnd x _ | .ldVxDT x | .ldK x => r == x
  | .addReg x _ | .sub x _ | .shr x _ | .subn x _ | .shl x _ => r == x || r == VF
  | .drw _ _ _ => r == VF
  | .ldRegsMem x => r ≤ x
  | .cls | .ret | .sys _ | .jp _ | .call _ | .seImm _ _ | .sneImm _ _ | .seReg _ _ | .seRegN _ _ _ | .sneReg _ _
  | .sneRegN _ _ _ | .ldI _ | .jpV0 _ | .skp _ | .sknp _ | .ldDTVx _ | .ldSTVx _ | .addI _ | .ldF _ | .ldB _
  | .ldMemRegs _ | .unrecognized _ => false

end Sys2Proof
end

