-- ==== Sys2Proof/Certificates/Slice0/Obligations.lean ====
section
/-! DEFINITION. The statements for the provers, from the numbered rules of spec/. "Frame" parts are written as
`t = { s with f := t.f }`: no field of the state but `f` changes. Every meaning starts from the state after the fetch advance, so
`s.pc` is the instruction's address plus 2 and `s.pc - 2` its address (R16). -/

open Sys2Proof Sys2Proof.Machine

/-! ## Encoding (30_encoding.md) -/

/-- Words written out in the spec decode to the instructions they stand for: the six of §8 (30_encoding.md, introduction), words of
95_test_vectors.md, and the examples of R101 (`0123`) and R142 (`830E`). The patterns are those of R84 (the spec's decision D4). -/
def Obligations.SpecWordsDecode : Prop :=
  decodeWord 0x00E0 = .cls ∧ decodeWord 0x1200 = .jp 0x200 ∧ decodeWord 0x6A05 = .ldImm 0xA 0x05 ∧
  decodeWord 0x7A03 = .addImm 0xA 0x03 ∧ decodeWord 0xA050 = .ldI 0x050 ∧ decodeWord 0xF029 = .ldF 0x0 ∧
  decodeWord 0x00EE = .ret ∧ decodeWord 0x0123 = .sys 0x123 ∧ decodeWord 0x5121 = .seRegN 0x1 0x2 0x1 ∧
  decodeWord 0x80F4 = .addReg 0x0 0xF ∧ decodeWord 0x830E = .shl 0x3 0x0 ∧ decodeWord 0xDF11 = .drw 0xF 0x1 0x1 ∧
  decodeWord 0xE1A1 = .sknp 0x1 ∧ decodeWord 0xF265 = .ldRegsMem 0x2 ∧ decodeWord 0x8AB8 = .unrecognized 0x8AB8

/-- For every well-formed instruction, with every operand, decoding its encoding gives it back and leaves the bytes after it. -/
def Obligations.DecodeOfEncodeGivesTheInstructionBack : Prop :=
  ∀ (i : Instr) (rest : List Byte), i.wellFormed = true → decode (encode i ++ rest) = .ok (i, rest)

/-- Every one of the 65536 words decodes to a well-formed instruction that encodes to that word: no bit of a word is lost. -/
def Obligations.EncodeOfDecodeGivesTheWordBack : Prop :=
  ∀ w : Word, (decodeWord w).wellFormed = true ∧ encodeWord (decodeWord w) = w

/-- The words that only the catch-all row takes, and the words of SYS, are those R84 and R87 list. -/
def Obligations.UnrecognizedAndSysWordsAreTheListedOnes : Prop :=
  ∀ w : Word,
    ((∃ u, decodeWord w = .unrecognized u) ↔
      (w.toNat / 4096 = 0x8 ∧ w.toNat % 16 ∈ [0x8, 0x9, 0xA, 0xB, 0xC, 0xD, 0xF]) ∨
      (w.toNat / 4096 = 0xE ∧ w.toNat % 256 ∉ [0x9E, 0xA1]) ∨
      (w.toNat / 4096 = 0xF ∧ w.toNat % 256 ∉ [0x07, 0x0A, 0x15, 0x18, 0x1E, 0x29, 0x33, 0x55, 0x65])) ∧
    ((∃ nnn, decodeWord w = .sys nnn) ↔ w.toNat / 4096 = 0x0 ∧ w ≠ 0x00E0 ∧ w ≠ 0x00EE)

/-- Two rows of the opcode table (other than the catch-all) take one word only where R83 says so: CLS and SYS, RET and SYS, SE.reg
and SE.reg.n, SNE.reg and SNE.reg.n, the more special row first. -/
def Obligations.OnlyTheNamedRowsOverlap : Prop :=
  ∀ (w : Word) (j k : Nat) (p q : Row), j < k → opcodeRows[j]? = some p → opcodeRows[k]? = some q →
    p.takes w = true → q.takes w = true →
    (p.mnemonic, q.mnemonic) ∈ [("CLS", "SYS"), ("RET", "SYS"), ("SE.reg", "SE.reg.n"), ("SNE.reg", "SNE.reg.n")]

/-! ## Reset and program load (70_reset_and_hazards.md) -/

/-- The state after reset, field by field (R20, R280, R66; the values other than PC are the spec's decisions D7, D8, D18, D19), and
what the model keeps beside it (log entries 4, 5 and 7), but for the counter of the free random bytes, on whose value no statement
rests (log entry 6). -/
def Obligations.ResetHoldsTheResetValues : Prop :=
  (∀ r, State.reset.readV r = 0) ∧ State.reset.i = 0 ∧ State.reset.pc = 0x200 ∧ State.reset.stack = [] ∧
  State.reset.dt = 0 ∧ State.reset.st = 0 ∧ (∀ px py, State.reset.disp.pixel px py = false) ∧
  (∀ k, State.reset.readKey k = false) ∧ State.reset.audioOn = false ∧ State.reset.status = .running ∧
  (∀ a, State.reset.readMem a = if 0x050 ≤ a ∧ a < 0x0A0 then defaultFont.toList.getD (a - 0x050) 0 else 0) ∧
  State.reset.params = { skipLowNibble := .noop, vfOrder := .flagLast, keyIndex := .fault, iOverflow := .wrap,
                         reservedStore := .store, resetValues := .zero } ∧
  State.reset.sched = [] ∧ State.reset.audioOut = []

/-- Memory after reset with no program: glyph `d` of R64 at `0x050 + 5*d`, its five bytes written here as one number, and 0 at
every other address (R61, R66; the glyph bytes are the spec's decision D18, the zeros D7). -/
def Obligations.ResetMemoryHoldsTheFont : Prop :=
  (∀ d k : Nat, d < 16 → k < 5 →
    (State.reset.readMem (0x050 + 5 * d + k)).toNat =
      [0xF0909090F0, 0x2060202070, 0xF010F080F0, 0xF010F010F0, 0x9090F01010, 0xF080F010F0, 0xF080F090F0, 0xF010204040,
       0xF090F090F0, 0xF090F010F0, 0xF090F09090, 0xE090E090E0, 0xF0808080F0, 0xE0909090E0, 0xF080F080F0,
       0xF080F08080].getD d 0 / 256 ^ (4 - k) % 256) ∧
  (∀ a : Nat, a < 0x050 ∨ 0x0A0 ≤ a → State.reset.readMem a = 0)

/-- A program image of more than 3584 bytes is refused; any other one is copied to 0x200, after the font image at 0x050, and every
other field is at its reset value (R281, R267, R66), but that under P_RESET_VALUES = unwritten V0..VF, I, DT and ST hold free values
(R280, D8; log entry 9). -/
def Obligations.BootLoadsTheImageOrRefusesIt : Prop :=
  ∀ (p : Params) (font : Vector Byte 80) (image : List Byte),
    (3584 < image.length → boot p font image = .error .tooLarge) ∧
    (image.length ≤ 3584 → ∃ s, boot p font image = .ok s ∧ 
      s = { State.reset with params := p, mem := s.mem, v := s.v, i := s.i, dt := s.dt, st := s.st } ∧
      (p.resetValues = .zero → s = { State.reset with params := p, mem := s.mem }) ∧
      ∀ a, s.readMem a =
        if 0x200 ≤ a ∧ a < 0x200 + image.length then image.getD (a - 0x200) 0
        else if 0x050 ≤ a ∧ a < 0x0A0 then font.toList.getD (a - 0x050) 0
        else 0)

/-- With the default parameters and font and a zero-length image, the state after reset is `State.reset` (R281, D25). -/
def Obligations.ResetIsTheBootOfAnEmptyImage : Prop :=
  boot defaultParams defaultFont [] = .ok State.reset

/-! ## The steps (40_control.md R100, 60_exceptions.md R250) -/

/-- A cycle step of a running engine whose two bytes at PC decode to `i` runs `i`, with PC advanced by 2 first; the transaction that
was served no longer comes. (Under P_RESET_VALUES = unwritten too, where R280 and D8 give a model fault: the model's choice, log
entry 9.) -/
def Obligations.StepRunsTheDecodedInstruction : Prop :=
  ∀ (s : State) (i : Instr), s.status = .running → nextEvent s = .cycle → s.pc.toNat + 1 < 4096 →
    decode [s.readMem s.pc.toNat, s.readMem (s.pc.toNat + 1)] = .ok (i, []) →
    step s = exec i { s with pc := s.pc + 2, sched := s.sched.tail }

/-- A fetch at 0x0FFF or later stops with MemoryBounds and the fetch address, and changes nothing else, not even PC (R65, D5). -/
def Obligations.FetchOutOfRangeStops : Prop :=
  ∀ s : State, s.status = .running → nextEvent s = .cycle → 0x0FFF ≤ s.pc.toNat →
    step s = .next { s with status := .stopped ⟨.memoryBounds, s.pc.toNat⟩, sched := s.sched.tail }

/-- The host's `set(k, d)` between two steps sets `key[k]` and nothing else (R245). -/
def Obligations.HostKeyEventSetsOneKey : Prop :=
  ∀ (s : State) (k : Key) (d : Bool) (es : List Event), s.status = .running → s.sched = .key k d :: es →
    ∃ t, step s = .next t ∧ t = { s with key := t.key, sched := es } ∧
      ∀ j, t.readKey j = if j = k then d else s.readKey j

/-- A snapshot read changes nothing, running or stopped, and shows the display as it is (R180, R250). -/
def Obligations.SnapshotChangesNothing : Prop :=
  ∀ (s : State) (es : List Event), s.sched = .snapshot :: es →
    step s = .next { s with sched := es } ∧ s.snapshot = s.disp

/-- A timer tick of a running engine: both timers count down by one with a floor at 0; `start` is emitted when ST was above 0 and the
audio was off, `stop` when ST is then 0 and the audio was on or has just been started; `audio_on` is then on exactly when ST is not 0
(R240, R241); nothing else changes (R236). (Under P_RESET_VALUES = unwritten too, where R280 gives a
model fault: the model's choice, log entry 9.) -/
def Obligations.TimerTickCountsDownAndSignals : Prop :=
  ∀ (s : State) (es : List Event), s.status = .running → s.sched = .timerTick :: es →
    ∃ t, step s = .next t ∧
      t = { s with dt := t.dt, st := t.st, audioOn := t.audioOn, audioOut := t.audioOut, sched := es } ∧
      t.dt.toNat = s.dt.toNat - 1 ∧ t.st.toNat = s.st.toNat - 1 ∧ (t.audioOn = true ↔ t.st ≠ 0) ∧
      t.audioOut = s.audioOut ++ (if s.st ≠ 0 ∧ s.audioOn = false then [.start] else []) ++
        (if t.st = 0 ∧ (s.audioOn = true ∨ s.st ≠ 0) then [.stop] else [])

/-- In `Stopped` no cycle step, timer tick or key event is taken: the machine is stuck with its stop (R232, R235, R250). -/
def Obligations.StoppedTakesNoStep : Prop :=
  ∀ (s : State) (stop : Stop), s.status = .stopped stop → nextEvent s ≠ .snapshot → step s = .fault (.stopped stop)

/-- No run leaves `Stopped`: whatever is reached from a stopped state is that state, but for the transactions still to come. -/
def Obligations.NoRunLeavesStopped : Prop :=
  ∀ (n : Nat) (s t : State) (stop : Stop), s.status = .stopped stop → ReachesIn n s t → t = { s with sched := t.sched }

/-- No instruction sees or changes the transactions to come: with other ones it does the same (R35). -/
def Obligations.InstructionsDoNotSeeTheSchedule : Prop :=
  ∀ (i : Instr) (s t : State) (coming : List Event), exec i s = .next t →
    exec i { s with sched := coming } = .next { t with sched := coming }

/-- Every interleaving of transactions is a run: a run of as many steps serves exactly the listed transactions in their order
(R250, R251, R254; the schedule that lists them is the model's own, log entry 4). -/
def Obligations.EveryInterleavingIsARun : Prop :=
  ∀ (es rest : List Event) (s : State),
    Host.Core.run Sys2Proof.core es.length { s with sched := es ++ rest } = serveAll es { s with sched := rest }

/-! ## Control transfer (40_control.md) -/

/-- SYS and the unrecognized words do nothing beyond the fetch's PC advance (R101, R112). -/
def Obligations.SysAndUnrecognizedDoNothing : Prop :=
  ∀ s : State, (∀ nnn, exec (.sys nnn) s = .next s) ∧ (∀ w, exec (.unrecognized w) s = .next s)

/-- RET takes PC from the top of the stack and pops it; with an empty stack it stops with StackUnderflow (R102). -/
def Obligations.RetPopsOrUnderflows : Prop :=
  ∀ s : State,
    (s.stack = [] → StopsWith .ret s .stackUnderflow (s.pc - 2).toNat) ∧
    (∀ below top, s.stack = below ++ [top] → exec .ret s = .next { s with pc := top, stack := below })

/-- JP sets PC to nnn; JP V0 sets PC to nnn plus V0 modulo 2^16, not masked to 12 bits; nothing else changes (R103, R111). -/
def Obligations.JumpsSetPc : Prop :=
  ∀ (nnn : Imm12) (s : State),
    (∃ t, exec (.jp nnn) s = .next t ∧ t = { s with pc := t.pc } ∧ t.pc.toNat = nnn.toNat) ∧
    (∃ t, exec (.jpV0 nnn) s = .next t ∧ t = { s with pc := t.pc } ∧
      t.pc.toNat = (nnn.toNat + (s.readV 0).toNat) % 65536)

/-- CALL pushes PC, which is its own address plus 2, and sets PC to nnn; with 16 entries on the stack it stops with StackOverflow
(R104; the stop is the spec's decision D9). -/
def Obligations.CallPushesOrOverflows : Prop :=
  ∀ (nnn : Imm12) (s : State),
    (s.stack.length < 16 → ∃ t, exec (.call nnn) s = .next t ∧
      t = { s with pc := t.pc, stack := s.stack ++ [s.pc] } ∧ t.pc.toNat = nnn.toNat) ∧
    (s.stack.length = 16 → StopsWith (.call nnn) s .stackOverflow (s.pc - 2).toNat)

/-- The four conditional skips: PC + 2 more when the condition holds, nothing otherwise (R106, R107, R108, R109). -/
def Obligations.ConditionalSkipsSkipOneWord : Prop :=
  ∀ (x y : Reg) (nn : Byte) (s : State),
    exec (.seImm x nn) s = .next { s with pc := if s.readV x = nn then s.pc + 2 else s.pc } ∧
    exec (.sneImm x nn) s = .next { s with pc := if s.readV x = nn then s.pc else s.pc + 2 } ∧
    exec (.seReg x y) s = .next { s with pc := if s.readV x = s.readV y then s.pc + 2 else s.pc } ∧
    exec (.sneReg x y) s = .next { s with pc := if s.readV x = s.readV y then s.pc else s.pc + 2 }

/-- `5XYN` and `9XYN` with n ≠ 0 under each value of P_SKIP_LOW_NIBBLE: a no-op, the skip of `5XY0` or `9XY0`, or the stop
IllegalEncoding (R110, D11). -/
def Obligations.LowNibbleSkipsFollowTheParameter : Prop :=
  ∀ (x y : Reg) (n : Nibble) (s : State),
    (s.params.skipLowNibble = .noop → exec (.seRegN x y n) s = .next s ∧ exec (.sneRegN x y n) s = .next s) ∧
    (s.params.skipLowNibble = .ignore →
      exec (.seRegN x y n) s = .next { s with pc := if s.readV x = s.readV y then s.pc + 2 else s.pc } ∧
      exec (.sneRegN x y n) s = .next { s with pc := if s.readV x = s.readV y then s.pc else s.pc + 2 }) ∧
    (s.params.skipLowNibble = .fault →
      StopsWith (.seRegN x y n) s .illegalEncoding (s.pc - 2).toNat ∧
      StopsWith (.sneRegN x y n) s .illegalEncoding (s.pc - 2).toNat)

/-! ## Register arithmetic and logic (41_alu.md) -/

/-- Load immediate, copy, OR, AND and XOR write the destination alone; VF is not reset (R130, R132, R133, R134, R135). -/
def Obligations.LoadsAndLogicWriteTheDestination : Prop :=
  ∀ (x y : Reg) (nn : Byte) (s : State),
    WritesReg (.ldImm x nn) s x nn ∧ WritesReg (.ldReg x y) s x (s.readV y) ∧
    WritesReg (.orReg x y) s x (s.readV x ||| s.readV y) ∧
    WritesReg (.andReg x y) s x (s.readV x &&& s.readV y) ∧
    WritesReg (.xorReg x y) s x (s.readV x ^^^ s.readV y)

/-- Add immediate wraps modulo 256 and writes no flag (R131). -/
def Obligations.AddImmediateWrapsWithoutFlag : Prop :=
  ∀ (x : Reg) (nn : Byte) (s : State),
    WritesReg (.addImm x nn) s x (BitVec.ofNat 8 (((s.readV x).toNat + nn.toNat) % 256))

/-- ADD writes the sum modulo 256 and VF = 1 exactly when the exact sum exceeds 255; with VF as destination the flag is what it
holds under the default P_VF_ORDER (R138; the other value: `ResultLastLeavesTheResultInVF`). -/
def Obligations.AddWritesSumAndCarry : Prop :=
  ∀ (x y : Reg) (s : State), x ≠ VF ∨ s.params.vfOrder = .flagLast →
    WritesRegAndFlag (.addReg x y) s x (BitVec.ofNat 8 (((s.readV x).toNat + (s.readV y).toNat) % 256))
      (decide ((s.readV x).toNat + (s.readV y).toNat > 255))

/-- SUB writes Vx - Vy and SUBN writes Vy - Vx, modulo 256; VF = 1 exactly when there is no borrow: Vx ≥ Vy, or Vy ≥ Vx (R139,
R141; VF as destination as in ADD). -/
def Obligations.SubAndSubnWriteDifferenceAndNoBorrow : Prop :=
  ∀ (x y : Reg) (s : State), x ≠ VF ∨ s.params.vfOrder = .flagLast →
    WritesRegAndFlag (.sub x y) s x (BitVec.ofNat 8 (((s.readV x).toNat + 256 - (s.readV y).toNat) % 256))
      (decide ((s.readV x).toNat ≥ (s.readV y).toNat)) ∧
    WritesRegAndFlag (.subn x y) s x (BitVec.ofNat 8 (((s.readV y).toNat + 256 - (s.readV x).toNat) % 256))
      (decide ((s.readV y).toNat ≥ (s.readV x).toNat))

/-- SHR halves Vx in place, VF holding the bit shifted out, bit 0; SHL doubles Vx modulo 256 in place, VF holding the bit shifted out,
bit 7; Vy is not read (R140, R142; VF as destination as in ADD). -/
def Obligations.ShiftsMoveTheShiftedOutBitToVF : Prop :=
  ∀ (x y : Reg) (s : State), x ≠ VF ∨ s.params.vfOrder = .flagLast →
    WritesRegAndFlag (.shr x y) s x (BitVec.ofNat 8 ((s.readV x).toNat / 2)) (decide ((s.readV x).toNat % 2 = 1)) ∧
    WritesRegAndFlag (.shl x y) s x (BitVec.ofNat 8 ((s.readV x).toNat * 2 % 256)) (decide ((s.readV x).toNat ≥ 128))

/-- With P_VF_ORDER = result_last and VF as destination, VF holds the result and the flag is lost (R137; the spec's decision D12). -/
def Obligations.ResultLastLeavesTheResultInVF : Prop :=
  ∀ (y : Reg) (s : State), s.params.vfOrder = .resultLast →
    WritesReg (.addReg VF y) s VF (BitVec.ofNat 8 (((s.readV VF).toNat + (s.readV y).toNat) % 256)) ∧
    WritesReg (.sub VF y) s VF (BitVec.ofNat 8 (((s.readV VF).toNat + 256 - (s.readV y).toNat) % 256)) ∧
    WritesReg (.subn VF y) s VF (BitVec.ofNat 8 (((s.readV y).toNat + 256 - (s.readV VF).toNat) % 256)) ∧
    WritesReg (.shr VF y) s VF (BitVec.ofNat 8 ((s.readV VF).toNat / 2)) ∧
    WritesReg (.shl VF y) s VF (BitVec.ofNat 8 ((s.readV VF).toNat * 2 % 256))

/-- RND writes a random byte masked by nn, whatever the byte is, and the next draw is another one (R143, R261; the draw is the free
value of log entry 6). -/
def Obligations.RndMasksTheDraw : Prop :=
  ∀ (x : Reg) (nn : Byte) (s : State),
    ∃ t, exec (.rnd x nn) s = .next t ∧ t = { s with v := t.v, draws := s.draws + 1 } ∧
      ∀ r, t.readV r = if r = x then Config.randomByte s.draws &&& nn else s.readV r

/-! ## Index register and memory (42_index_memory.md) -/

/-- LD I sets I to nnn and LD F sets I to 0x050 + 5·Vx, with no mask of Vx (R160, R162). -/
def Obligations.LdIAndLdFSetI : Prop :=
  ∀ s : State,
    (∀ nnn, ∃ t, exec (.ldI nnn) s = .next t ∧ t = { s with i := t.i } ∧ t.i.toNat = nnn.toNat) ∧
    (∀ x, ∃ t, exec (.ldF x) s = .next t ∧ t = { s with i := t.i } ∧ t.i.toNat = 0x050 + 5 * (s.readV x).toNat)

/-- ADD I adds Vx to I, VF unchanged; a sum of 2^16 or more wraps or stops as P_I_OVERFLOW says (R161, D15). -/
def Obligations.AddIAddsToIndex : Prop :=
  ∀ (x : Reg) (s : State),
    (s.i.toNat + (s.readV x).toNat < 65536 ∨ s.params.iOverflow = .wrap →
      ∃ t, exec (.addI x) s = .next t ∧ t = { s with i := t.i } ∧
        t.i.toNat = (s.i.toNat + (s.readV x).toNat) % 65536) ∧
    (65536 ≤ s.i.toNat + (s.readV x).toNat → s.params.iOverflow = .fault →
      StopsWith (.addI x) s .indexOverflow (s.pc - 2).toNat)

/-- LD B stores hundreds, tens and units of Vx at I, I+1, I+2; every other byte and all the rest of the state, I too, is as before
(R163, D16). -/
def Obligations.LdBStoresThreeDigits : Prop :=
  ∀ (x : Reg) (s : State), StoreInRange s 3 →
    ∃ t, exec (.ldB x) s = .next t ∧ t = { s with mem := t.mem } ∧
      (t.readMem s.i.toNat).toNat = (s.readV x).toNat / 100 ∧
      (t.readMem (s.i.toNat + 1)).toNat = (s.readV x).toNat / 10 % 10 ∧
      (t.readMem (s.i.toNat + 2)).toNat = (s.readV x).toNat % 10 ∧
      ∀ a, a < s.i.toNat ∨ s.i.toNat + 3 ≤ a → t.readMem a = s.readMem a

/-- LD [I], Vx stores V0..Vx at I..I+x; every other byte and all the rest of the state, I too, is as before (R164, D16). -/
def Obligations.LdMemRegsStoresTheBlock : Prop :=
  ∀ (x : Reg) (s : State), StoreInRange s (x.val + 1) →
    ∃ t, exec (.ldMemRegs x) s = .next t ∧ t = { s with mem := t.mem } ∧
      (∀ r, r ≤ x → t.readMem (s.i.toNat + r.val) = s.readV r) ∧
      ∀ a, a < s.i.toNat ∨ s.i.toNat + x.val + 1 ≤ a → t.readMem a = s.readMem a

/-- LD Vx, [I] loads V0..Vx from I..I+x; the registers above Vx and all the rest of the state, memory and I too, are as before
(R165, D16). -/
def Obligations.LdRegsMemLoadsTheBlock : Prop :=
  ∀ (x : Reg) (s : State), s.i.toNat + x.val + 1 ≤ 4096 →
    ∃ t, exec (.ldRegsMem x) s = .next t ∧ t = { s with v := t.v } ∧
      ∀ r, t.readV r = if r ≤ x then s.readMem (s.i.toNat + r.val) else s.readV r

/-- An access past the end of memory stops with MemoryBounds before any write, and the lowest failing address names the stop: the
first of the addresses I, I+1, … that is 4096 or more (R71, R163, R164, R165, R182; D5). -/
def Obligations.AccessPastMemoryStops : Prop :=
  ∀ (x y : Reg) (n : Nibble) (s : State),
    (4096 < s.i.toNat + 3 → (0x200 ≤ s.i.toNat ∨ s.params.reservedStore = .store) →
      StopsWith (.ldB x) s .memoryBounds (max s.i.toNat 4096)) ∧
    (4096 < s.i.toNat + x.val + 1 → (0x200 ≤ s.i.toNat ∨ s.params.reservedStore = .store) →
      StopsWith (.ldMemRegs x) s .memoryBounds (max s.i.toNat 4096)) ∧
    (4096 < s.i.toNat + x.val + 1 → StopsWith (.ldRegsMem x) s .memoryBounds (max s.i.toNat 4096)) ∧
    (n ≠ 0 → 4096 < s.i.toNat + n.toNat → StopsWith (.drw x y n) s .memoryBounds (max s.i.toNat 4096))

/-- With P_RESERVED_STORE = fault a store that begins below 0x200 stops with ReservedWrite and its first address, before any write
(R62, D6). -/
def Obligations.ReservedStoreStopsUnderFault : Prop :=
  ∀ (x : Reg) (s : State), s.params.reservedStore = .fault → s.i.toNat < 0x200 →
    StopsWith (.ldB x) s .reservedWrite s.i.toNat ∧ StopsWith (.ldMemRegs x) s .reservedWrite s.i.toNat

/-- Stored bytes are what the next fetch of their addresses runs, with no action in between: after a completed LD [I], Vx or LD B, a
cycle step at any PC runs the word made of the two bytes there, each the stored one where the store reached it, else the byte as before
(R76, R284; D28). -/
def Obligations.StoredInstructionsAreFetched : Prop :=
  ∀ (x : Reg) (p : Word) (s t : State), t.status = .running → nextEvent t = .cycle → p.toNat + 1 < 4096 →
    (exec (.ldMemRegs x) s = .next t →
      step { t with pc := p } =
        exec
          (decodeWord (byteAfterStore s (x.val + 1) (fun k => s.readV (Fin.ofNat 16 k)) p.toNat ++
            byteAfterStore s (x.val + 1) (fun k => s.readV (Fin.ofNat 16 k)) (p.toNat + 1)))
          { t with pc := p + 2, sched := t.sched.tail }) ∧
    (exec (.ldB x) s = .next t →
      step { t with pc := p } =
        exec
          (decodeWord (byteAfterStore s 3 (digitByte (s.readV x)) p.toNat ++
            byteAfterStore s 3 (digitByte (s.readV x)) (p.toNat + 1)))
          { t with pc := p + 2, sched := t.sched.tail })

/-! ## Display (43_display.md) -/

/-- CLS zeroes every pixel and changes nothing else, VF included (R181). -/
def Obligations.ClsZeroesEveryPixel : Prop :=
  ∀ s : State, ∃ t, exec .cls s = .next t ∧ t = { s with disp := t.disp } ∧ ∀ px py, t.disp.pixel px py = false

/-- DRW inverts exactly the pixels of the grid on which a set sprite bit falls, rows and columns past the edges being dropped; VF is 1
exactly when one of them was set before, else 0; every other register and all the rest of the state is as before (R182, R183). -/
def Obligations.DrwInvertsDrawnPixelsAndReportsErasure : Prop :=
  ∀ (x y : Reg) (n : Nibble) (s : State), SpriteInRange s n →
    ∃ t, exec (.drw x y n) s = .next t ∧ t = { s with disp := t.disp, v := t.v } ∧
      (∀ px py, px < 64 → py < 32 → DrawnAt s x y n px py → t.disp.pixel px py = !s.disp.pixel px py) ∧
      (∀ px py, px < 64 → py < 32 → ¬ DrawnAt s x y n px py → t.disp.pixel px py = s.disp.pixel px py) ∧
      ((∃ px py, px < 64 ∧ py < 32 ∧ DrawnAt s x y n px py ∧ s.disp.pixel px py = true) → t.readV VF = 1) ∧
      ((¬ ∃ px py, px < 64 ∧ py < 32 ∧ DrawnAt s x y n px py ∧ s.disp.pixel px py = true) → t.readV VF = 0) ∧
      ∀ r, r ≠ VF → t.readV r = s.readV r

/-- The XOR idempotence law: a second DRW of the same sprite bytes at the same coordinates gives the grid back as it was before the
first. It reports a collision exactly when some drawn pixel was clear before the first; so, where the first reported none, exactly when
a set sprite bit falls on the grid. (R184 states the last for every grid; by R182 and R183 it holds only there: log entry 12.) -/
def Obligations.DrawingTwiceRestoresTheGrid : Prop :=
  ∀ (x y x' y' : Reg) (n : Nibble) (s t s' u : State), SpriteInRange s n → SpriteInRange s' n →
    exec (.drw x y n) s = .next t → exec (.drw x' y' n) s' = .next u → s'.disp = t.disp →
    s'.readV x' = s.readV x → s'.readV y' = s.readV y →
    (∀ r, r < n.toNat → s'.readMem (s'.i.toNat + r) = s.readMem (s.i.toNat + r)) →
    u.disp = s.disp ∧
      (u.readV VF = 1 ↔ ∃ px py, px < 64 ∧ py < 32 ∧ DrawnAt s x y n px py ∧ s.disp.pixel px py = false) ∧
      (t.readV VF = 0 → (u.readV VF = 1 ↔ ∃ px py, px < 64 ∧ py < 32 ∧ DrawnAt s x y n px py))

/-! ## Input and timers (44_input_timers.md) -/

/-- SKP skips when the key Vx names is down and SKNP when it is up, the latch only read; for Vx above 0x0F they stop with KeyIndex or
take Vx mod 16, as P_KEY_INDEX says (R200, R201, R206; D13). -/
def Obligations.KeySkipsReadTheLatch : Prop :=
  ∀ (x : Reg) (k : Key) (s : State),
    ((s.readV x).toNat = k.val ∨ (s.params.keyIndex = .mask ∧ (s.readV x).toNat % 16 = k.val) →
      exec (.skp x) s = .next { s with pc := if s.readKey k = true then s.pc + 2 else s.pc } ∧
      exec (.sknp x) s = .next { s with pc := if s.readKey k = true then s.pc else s.pc + 2 }) ∧
    (s.params.keyIndex = .fault → 0x0F < (s.readV x).toNat →
      StopsWith (.skp x) s .keyIndex (s.pc - 2).toNat ∧ StopsWith (.sknp x) s .keyIndex (s.pc - 2).toNat)

/-- LD Vx, K takes the lowest key down: its number goes to Vx, its latch is cleared, every other key and register is as before; with
no key down PC goes back by 2 and nothing else changes (R202; the lowest is the spec's decision D14). -/
def Obligations.WaitForKeyTakesTheLowestOrRewinds : Prop :=
  ∀ (x : Reg) (s : State),
    ((∀ k, s.readKey k = false) → exec (.ldK x) s = .next { s with pc := s.pc - 2 }) ∧
    (∀ k : Key, s.readKey k = true → (∀ j, j < k → s.readKey j = false) →
      ∃ t, exec (.ldK x) s = .next t ∧ t = { s with v := t.v, key := t.key } ∧
        (∀ r, t.readV r = if r = x then BitVec.ofNat 8 k.val else s.readV r) ∧
        ∀ j, t.readKey j = if j = k then false else s.readKey j)

/-- While no key is down, a cycle step at an FX0A leaves the engine where it is: the same state, PC included, one transaction later
(R34, R202, R286; D27). -/
def Obligations.WaitingForAKeyChangesNothing : Prop :=
  ∀ (x : Reg) (s : State), s.status = .running → nextEvent s = .cycle → s.pc.toNat + 1 < 4096 →
    decode [s.readMem s.pc.toNat, s.readMem (s.pc.toNat + 1)] = .ok (.ldK x, []) → (∀ k, s.readKey k = false) →
    step s = .next { s with sched := s.sched.tail }

/-- The timer moves copy between a register and a timer; LD ST signals nothing (R203, R204, R205; D31). -/
def Obligations.TimerMovesCopy : Prop :=
  ∀ (x : Reg) (s : State),
    WritesReg (.ldVxDT x) s x s.dt ∧
    exec (.ldDTVx x) s = .next { s with dt := s.readV x } ∧
    exec (.ldSTVx x) s = .next { s with st := s.readV x }

/-! ## Whole-machine rules, over all instructions -/

/-- Every instruction runs in every state: none is privileged, faults or is refused (R238). So every step of a running engine answers a
next state, whatever transaction it serves. That this holds under P_RESET_VALUES = unwritten too, where R280 and D8 give a model fault
for the read of a register that nothing has written, is the model's choice (log entry 9). -/
def Obligations.EveryInstructionAnswersANextState : Prop :=
  (∀ (i : Instr) (s : State), ∃ t, exec i s = .next t) ∧ ∀ s : State, s.status = .running → ∃ t, step s = .next t

/-- Stops are precise: an instruction that stops a running engine changes nothing but the status (R232, R233). -/
def Obligations.StopsArePrecise : Prop :=
  ∀ (i : Instr) (s t : State), s.status = .running → exec i s = .next t → t.status ≠ .running →
    t = { s with status := t.status }

/-- Every stop an instruction raises is one of R231's: its reason, its instruction, its condition and its info. -/
def Obligations.EveryStopIsExplained : Prop :=
  ∀ (i : Instr) (s t : State) (stop : Stop), s.status = .running → exec i s = .next t → t.status = .stopped stop →
    StopExplained i s stop

/-- Under the default parameters only StackUnderflow, StackOverflow, MemoryBounds and KeyIndex can be raised. (R231 says codes 1, 2
and 3 only, as an inference of its own; its table and R206 give KeyIndex under the default P_KEY_INDEX = fault: log entry 10.) -/
def Obligations.DefaultParametersRaiseFourReasons : Prop :=
  ∀ (s t : State) (stop : Stop), s.params = defaultParams → s.status = .running → step s = .next t →
    t.status = .stopped stop → stop.reason ∈ [.stackUnderflow, .stackOverflow, .memoryBounds, .keyIndex]

/-- PC is changed, beyond the fetch advance, only by the skips, JP, CALL, RET, JP V0 and the rewind of LD Vx, K (R26). -/
def Obligations.OnlyControlInstructionsChangePc : Prop :=
  ∀ (i : Instr) (s t : State), exec i s = .next t → i.writesPc = false → t.pc = s.pc

/-- A register that is neither the instruction's destination nor, for the six flag writers, VF, is unchanged (R23). -/
def Obligations.OnlyDestinationsAndFlagsChange : Prop :=
  ∀ (i : Instr) (r : Reg) (s t : State), exec i s = .next t → i.writesReg r = false → t.readV r = s.readV r

/-- Only CALL and RET change the stack (R27). -/
def Obligations.OnlyCallAndRetChangeTheStack : Prop :=
  ∀ (i : Instr) (s t : State), exec i s = .next t → t.stack ≠ s.stack → i = .ret ∨ ∃ nnn, i = .call nnn

/-- Only LD I, ADD I and LD F change I (R24). -/
def Obligations.OnlyIndexInstructionsChangeI : Prop :=
  ∀ (i : Instr) (s t : State), exec i s = .next t → t.i ≠ s.i →
    (∃ nnn, i = .ldI nnn) ∨ ∃ x, i = .addI x ∨ i = .ldF x

/-- Only CLS and DRW change the display, only LD Vx, K the key latch, and only LD B and LD [I], Vx memory (R29, R30, R60). -/
def Obligations.OnlyTheirInstructionsChangeDisplayKeysMemory : Prop :=
  ∀ (i : Instr) (s t : State), exec i s = .next t →
    (t.disp ≠ s.disp → i = .cls ∨ ∃ x y n, i = .drw x y n) ∧
    (t.key ≠ s.key → ∃ x, i = .ldK x) ∧
    (t.mem ≠ s.mem → ∃ x, i = .ldB x ∨ i = .ldMemRegs x)

/-- Only LD DT, Vx changes DT and only LD ST, Vx changes ST; no instruction touches the audio level or emits a signal (R28, R31); the
parameters never change and only RND draws (the model's own fields, log entries 5 and 6). -/
def Obligations.OnlyTimerMovesChangeTimersAndNoneSignals : Prop :=
  ∀ (i : Instr) (s t : State), exec i s = .next t →
    (t.dt ≠ s.dt → ∃ x, i = .ldDTVx x) ∧ (t.st ≠ s.st → ∃ x, i = .ldSTVx x) ∧
    t.audioOn = s.audioOn ∧ t.audioOut = s.audioOut ∧ t.params = s.params ∧
    (t.draws ≠ s.draws → ∃ x nn, i = .rnd x nn)

/-! ## Invariants -/

/-- The invariant holds after reset. -/
def Obligations.ResetMeetsTheInvariant : Prop := Inv State.reset

/-- The invariant holds after every program load, whatever the parameters, the font and the image. -/
def Obligations.BootMeetsTheInvariant : Prop :=
  ∀ (p : Params) (font : Vector Byte 80) (image : List Byte) (s : State), boot p font image = .ok s → Inv s

/-- Every step keeps the invariant: memory stays in canonical form inside the 4096 bytes (R60), the stack within its 16 entries (R27),
the audio signals alternating and ending at the level `audio_on` (R241), and a recorded stop consistent with its reason (R231). -/
def Obligations.StepKeepsTheInvariant : Prop :=
  ∀ s t : State, Inv s → step s = .next t → Inv t

/-- In canonical form, memories that read alike at every address are equal. -/
def Obligations.CanonicalMemoriesThatReadAlikeAreEqual : Prop :=
  ∀ m m' : Memory, Memory.wf m → Memory.wf m' → (∀ a, Memory.read m a = Memory.read m' a) → m = m'
end

