-- ==== Sys2Proof/Laws/Decode.lean ====
section
/-! SUPPORT. What the decoder and the encoder do, in the numbers of the fields: which words each row of the table takes, which
fields an encoded word holds, and that a word is its fields (30_encoding.md R81, R83, R84). -/

namespace Sys2Proof

/-! ## Fields as numbers -/

theorem kindField_toNat (w : Word) : (kindField w).toNat = w.toNat / 4096 := by
  have := w.isLt
  simp only [kindField, BitVec.extractLsb'_toNat, Nat.shiftRight_eq_div_pow]
  omega

theorem xField_val (w : Word) : (xField w).val = w.toNat / 256 % 16 := by
  simp only [xField, regOf, BitVec.extractLsb'_toNat, Nat.shiftRight_eq_div_pow]

theorem yField_val (w : Word) : (yField w).val = w.toNat / 16 % 16 := by
  simp only [yField, regOf, BitVec.extractLsb'_toNat, Nat.shiftRight_eq_div_pow]

theorem nField_toNat (w : Word) : (nField w).toNat = w.toNat % 16 := by
  simp [nField]

theorem nnField_toNat (w : Word) : (nnField w).toNat = w.toNat % 256 := by
  simp [nnField]

theorem nnnField_toNat (w : Word) : (nnnField w).toNat = w.toNat % 4096 := by
  simp [nnnField]

theorem nibbleOf_toNat (r : Reg) : (nibbleOf r).toNat = r.val := by
  have := r.isLt
  simp only [nibbleOf, BitVec.toNat_ofNat]
  omega

/-! ## Words as numbers -/

theorem toNat_append' {m n : Nat} (a : BitVec m) (b : BitVec n) : (a ++ b).toNat = a.toNat * 2 ^ n + b.toNat := by
  rw [BitVec.toNat_append, ← Nat.shiftLeft_add_eq_or_of_lt b.isLt, Nat.shiftLeft_eq]

theorem toNat_wordXYN (k n : Nibble) (x y : Reg) :
    (wordXYN k x y n).toNat = k.toNat * 4096 + x.val * 256 + y.val * 16 + n.toNat := by
  simp only [wordXYN, toNat_append', nibbleOf_toNat]
  omega

theorem toNat_wordXNN (k : Nibble) (x : Reg) (nn : Byte) :
    (wordXNN k x nn).toNat = k.toNat * 4096 + x.val * 256 + nn.toNat := by
  simp only [wordXNN, toNat_append', nibbleOf_toNat]
  omega

theorem toNat_wordNNN (k : Nibble) (nnn : Imm12) : (wordNNN k nnn).toNat = k.toNat * 4096 + nnn.toNat := by
  simp only [wordNNN, toNat_append']
  omega

theorem toNat_bigEndian (hi lo : Byte) : (bigEndian hi lo).toNat = hi.toNat * 256 + lo.toNat := by
  simp only [bigEndian, toNat_append']
  omega

theorem highByte_toNat (w : Word) : (highByte w).toNat = w.toNat / 256 := by
  have := w.isLt
  simp only [highByte, BitVec.extractLsb'_toNat, Nat.shiftRight_eq_div_pow]
  omega

theorem lowByte_toNat (w : Word) : (lowByte w).toNat = w.toNat % 256 := by
  simp [lowByte]

/-- A word's two bytes, high byte first, are the word (R67). -/
@[simp] theorem bigEndian_bytes (w : Word) : bigEndian (highByte w) (lowByte w) = w := by
  apply BitVec.eq_of_toNat_eq
  rw [toNat_bigEndian, highByte_toNat, lowByte_toNat]
  omega

/-! ## Fields of an encoded word -/

section fields
variable (k n : Nibble) (x y : Reg) (nn : Byte) (nnn : Imm12)

@[simp] theorem xField_wordXYN : xField (wordXYN k x y n) = x := by
  have := n.isLt
  apply Fin.ext
  rw [xField_val, toNat_wordXYN]
  omega

@[simp] theorem yField_wordXYN : yField (wordXYN k x y n) = y := by
  have := n.isLt
  apply Fin.ext
  rw [yField_val, toNat_wordXYN]
  omega

@[simp] theorem nField_wordXYN : nField (wordXYN k x y n) = n := by
  have := n.isLt
  apply BitVec.eq_of_toNat_eq
  rw [nField_toNat, toNat_wordXYN]
  omega

@[simp] theorem xField_wordXNN : xField (wordXNN k x nn) = x := by
  have := nn.isLt
  apply Fin.ext
  rw [xField_val, toNat_wordXNN]
  omega

@[simp] theorem nnField_wordXNN : nnField (wordXNN k x nn) = nn := by
  have := nn.isLt
  apply BitVec.eq_of_toNat_eq
  rw [nnField_toNat, toNat_wordXNN]
  omega

@[simp] theorem nnnField_wordNNN : nnnField (wordNNN k nnn) = nnn := by
  have := nnn.isLt
  apply BitVec.eq_of_toNat_eq
  rw [nnnField_toNat, toNat_wordNNN]
  omega

end fields

/-! ## Which words a mask leaves -/

theorem word_eq_kind_nnn (w : Word) : w = kindField w ++ nnnField w := by
  apply BitVec.eq_of_toNat_eq
  rw [toNat_append', kindField_toNat, nnnField_toNat]
  omega

theorem nnn_eq_mid_n (w : Word) : nnnField w = w.extractLsb' 4 8 ++ nField w := by
  apply BitVec.eq_of_toNat_eq
  rw [toNat_append', nnnField_toNat, nField_toNat, BitVec.extractLsb'_toNat, Nat.shiftRight_eq_div_pow]
  omega

theorem nnn_eq_x_nn (w : Word) : nnnField w = w.extractLsb' 8 4 ++ nnField w := by
  apply BitVec.eq_of_toNat_eq
  rw [toNat_append', nnnField_toNat, nnField_toNat, BitVec.extractLsb'_toNat, Nat.shiftRight_eq_div_pow]
  omega

theorem and_ones4 (a : BitVec 4) : a &&& 0xF#4 = a := BitVec.and_allOnes
theorem and_ones8 (a : BitVec 8) : a &&& 0xFF#8 = a := BitVec.and_allOnes
theorem and_ones16 (a : BitVec 16) : a &&& 0xFFFF#16 = a := BitVec.and_allOnes

theorem and_F000 (w : Word) : (w &&& 0xF000#16).toNat = w.toNat / 4096 * 4096 := by
  have h : w &&& 0xF000#16 = kindField w ++ 0#12 := by
    conv_lhs => rw [word_eq_kind_nnn w]
    show (kindField w ++ nnnField w) &&& (0xF#4 ++ 0#12) = _
    rw [BitVec.and_append, and_ones4, BitVec.and_zero]
  rw [h, toNat_append', kindField_toNat]
  simp

theorem and_F00F (w : Word) : (w &&& 0xF00F#16).toNat = w.toNat % 16 + w.toNat / 4096 * 4096 := by
  have h : w &&& 0xF00F#16 = kindField w ++ (0#8 ++ nField w) := by
    conv_lhs => rw [word_eq_kind_nnn w, nnn_eq_mid_n w]
    show (kindField w ++ (w.extractLsb' 4 8 ++ nField w)) &&& (0xF#4 ++ (0#8 ++ 0xF#4)) = _
    rw [BitVec.and_append, BitVec.and_append, and_ones4, and_ones4, BitVec.and_zero]
  rw [h, toNat_append', toNat_append', kindField_toNat, nField_toNat, Nat.add_comm]
  simp

theorem and_F0FF (w : Word) : (w &&& 0xF0FF#16).toNat = w.toNat % 256 + w.toNat / 4096 * 4096 := by
  have h : w &&& 0xF0FF#16 = kindField w ++ (0#4 ++ nnField w) := by
    conv_lhs => rw [word_eq_kind_nnn w, nnn_eq_x_nn w]
    show (kindField w ++ (w.extractLsb' 8 4 ++ nnField w)) &&& (0xF#4 ++ (0#4 ++ 0xFF#8)) = _
    rw [BitVec.and_append, BitVec.and_append, and_ones4, and_ones8, BitVec.and_zero]
  rw [h, toNat_append', toNat_append', kindField_toNat, nnField_toNat, Nat.add_comm]
  simp

theorem and_FFFF (w : Word) : (w &&& 0xFFFF#16).toNat = w.toNat := by rw [and_ones16]

theorem takes_iff (r : Row) (w : Word) : r.takes w = decide ((w &&& r.mask).toNat = r.pattern.toNat) := by
  rw [Row.takes, Bool.eq_iff_iff, beq_iff_eq, decide_eq_true_iff, BitVec.toNat_inj]

theorem takes_FFFF (w p : Word) (s : String) (f : Word → Instr) :
    (Row.mk s 0xFFFF p f).takes w = decide (w.toNat = p.toNat) := by
  rw [takes_iff]
  show decide ((w &&& 0xFFFF#16).toNat = p.toNat) = _
  rw [and_FFFF]

theorem takes_F000 (w p : Word) (s : String) (f : Word → Instr) :
    (Row.mk s 0xF000 p f).takes w = decide (w.toNat / 4096 * 4096 = p.toNat) := by
  rw [takes_iff]
  show decide ((w &&& 0xF000#16).toNat = p.toNat) = _
  rw [and_F000]

theorem takes_F00F (w p : Word) (s : String) (f : Word → Instr) :
    (Row.mk s 0xF00F p f).takes w = decide (w.toNat % 16 + w.toNat / 4096 * 4096 = p.toNat) := by
  rw [takes_iff]
  show decide ((w &&& 0xF00F#16).toNat = p.toNat) = _
  rw [and_F00F]

theorem takes_F0FF (w p : Word) (s : String) (f : Word → Instr) :
    (Row.mk s 0xF0FF p f).takes w = decide (w.toNat % 256 + w.toNat / 4096 * 4096 = p.toNat) := by
  rw [takes_iff]
  show decide ((w &&& 0xF0FF#16).toNat = p.toNat) = _
  rw [and_F0FF]

/-! ## The words no row takes -/

theorem unrecognizedWord_iff (w : Word) :
    unrecognizedWord w = true ↔
      (w.toNat / 4096 = 8 ∧ w.toNat % 16 ∈ [8, 9, 10, 11, 12, 13, 15]) ∨
      (w.toNat / 4096 = 14 ∧ w.toNat % 256 ∉ [0x9E, 0xA1]) ∨
      (w.toNat / 4096 = 15 ∧ w.toNat % 256 ∉ [0x07, 0x0A, 0x15, 0x18, 0x1E, 0x29, 0x33, 0x55, 0x65]) := by
  simp only [unrecognizedWord, unrecognizedKind8, unrecognizedKindE, unrecognizedKindF, Bool.or_eq_true, Bool.and_eq_true,
    beq_iff_eq, List.contains_eq_mem, decide_eq_true_eq, Bool.not_eq_true', decide_eq_false_iff_not, or_assoc]

/-- No row takes a word exactly when it is one of the words of R87. -/
theorem no_row_takes_iff (w : Word) : (∀ r ∈ opcodeRows, r.takes w = false) ↔ unrecognizedWord w = true := by
  have hw := w.isLt
  rw [unrecognizedWord_iff]
  simp only [opcodeRows, rowsLow, rowsAlu, rowsMid, rowsHigh, List.cons_append, List.nil_append, List.forall_mem_cons,
    takes_FFFF, takes_F000, takes_F00F, takes_F0FF, decide_eq_false_iff_not]
  simp only [BitVec.ofNat_eq_ofNat, BitVec.toNat_ofNat, List.mem_cons, List.not_mem_nil, or_false, not_or, false_imp_iff,
    implies_true, and_true, Nat.reducePow, Nat.reduceMod]
  obtain ⟨k, hk⟩ : ∃ k, w.toNat / 4096 = k := ⟨_, rfl⟩
  have hk16 : k < 16 := by omega
  rw [hk]
  interval_cases k
  · simp
  all_goals
    have h1 : w.toNat ≠ 224 := by omega
    have h2 : w.toNat ≠ 238 := by omega
    simp [h1, h2]
  · omega
  · intro _ _
    refine ⟨?_, ?_, ?_, ?_, ?_, ?_, ?_, ?_, ?_⟩ <;> omega

end Sys2Proof
end

