-- ==== Sys2Proof/Laws/State.lean ====
section
/-! SUPPORT. One lemma per field per update of State, and what each read sees after each update, so that no proof unfolds
a record update. -/

namespace Sys2Proof.Machine

variable (s : State)

/-! ### setV -/

@[simp] theorem State.setV_v (r : Reg) (b : Byte) : (s.setV r b).v = s.v.set r.val b r.isLt := rfl
@[simp] theorem State.setV_i (r : Reg) (b : Byte) : (s.setV r b).i = s.i := rfl
@[simp] theorem State.setV_pc (r : Reg) (b : Byte) : (s.setV r b).pc = s.pc := rfl
@[simp] theorem State.setV_stack (r : Reg) (b : Byte) : (s.setV r b).stack = s.stack := rfl
@[simp] theorem State.setV_dt (r : Reg) (b : Byte) : (s.setV r b).dt = s.dt := rfl
@[simp] theorem State.setV_st (r : Reg) (b : Byte) : (s.setV r b).st = s.st := rfl
@[simp] theorem State.setV_mem (r : Reg) (b : Byte) : (s.setV r b).mem = s.mem := rfl
@[simp] theorem State.setV_disp (r : Reg) (b : Byte) : (s.setV r b).disp = s.disp := rfl
@[simp] theorem State.setV_key (r : Reg) (b : Byte) : (s.setV r b).key = s.key := rfl
@[simp] theorem State.setV_audioOn (r : Reg) (b : Byte) : (s.setV r b).audioOn = s.audioOn := rfl
@[simp] theorem State.setV_status (r : Reg) (b : Byte) : (s.setV r b).status = s.status := rfl
@[simp] theorem State.setV_params (r : Reg) (b : Byte) : (s.setV r b).params = s.params := rfl
@[simp] theorem State.setV_draws (r : Reg) (b : Byte) : (s.setV r b).draws = s.draws := rfl
@[simp] theorem State.setV_sched (r : Reg) (b : Byte) : (s.setV r b).sched = s.sched := rfl
@[simp] theorem State.setV_audioOut (r : Reg) (b : Byte) : (s.setV r b).audioOut = s.audioOut := rfl
@[simp] theorem State.readMem_setV (r : Reg) (b : Byte) (n' : Nat) : (s.setV r b).readMem n' = s.readMem n' := rfl
@[simp] theorem State.readKey_setV (r : Reg) (b : Byte) (q : Key) : (s.setV r b).readKey q = s.readKey q := rfl

/-! ### setRegs -/

@[simp] theorem State.setRegs_v (x : Vector Byte 16) : (s.setRegs x).v = x := rfl
@[simp] theorem State.setRegs_i (x : Vector Byte 16) : (s.setRegs x).i = s.i := rfl
@[simp] theorem State.setRegs_pc (x : Vector Byte 16) : (s.setRegs x).pc = s.pc := rfl
@[simp] theorem State.setRegs_stack (x : Vector Byte 16) : (s.setRegs x).stack = s.stack := rfl
@[simp] theorem State.setRegs_dt (x : Vector Byte 16) : (s.setRegs x).dt = s.dt := rfl
@[simp] theorem State.setRegs_st (x : Vector Byte 16) : (s.setRegs x).st = s.st := rfl
@[simp] theorem State.setRegs_mem (x : Vector Byte 16) : (s.setRegs x).mem = s.mem := rfl
@[simp] theorem State.setRegs_disp (x : Vector Byte 16) : (s.setRegs x).disp = s.disp := rfl
@[simp] theorem State.setRegs_key (x : Vector Byte 16) : (s.setRegs x).key = s.key := rfl
@[simp] theorem State.setRegs_audioOn (x : Vector Byte 16) : (s.setRegs x).audioOn = s.audioOn := rfl
@[simp] theorem State.setRegs_status (x : Vector Byte 16) : (s.setRegs x).status = s.status := rfl
@[simp] theorem State.setRegs_params (x : Vector Byte 16) : (s.setRegs x).params = s.params := rfl
@[simp] theorem State.setRegs_draws (x : Vector Byte 16) : (s.setRegs x).draws = s.draws := rfl
@[simp] theorem State.setRegs_sched (x : Vector Byte 16) : (s.setRegs x).sched = s.sched := rfl
@[simp] theorem State.setRegs_audioOut (x : Vector Byte 16) : (s.setRegs x).audioOut = s.audioOut := rfl
@[simp] theorem State.readMem_setRegs (x : Vector Byte 16) (n' : Nat) : (s.setRegs x).readMem n' = s.readMem n' := rfl
@[simp] theorem State.readKey_setRegs (x : Vector Byte 16) (q : Key) : (s.setRegs x).readKey q = s.readKey q := rfl

/-! ### setI -/

@[simp] theorem State.setI_v (w : Word) : (s.setI w).v = s.v := rfl
@[simp] theorem State.setI_i (w : Word) : (s.setI w).i = w := rfl
@[simp] theorem State.setI_pc (w : Word) : (s.setI w).pc = s.pc := rfl
@[simp] theorem State.setI_stack (w : Word) : (s.setI w).stack = s.stack := rfl
@[simp] theorem State.setI_dt (w : Word) : (s.setI w).dt = s.dt := rfl
@[simp] theorem State.setI_st (w : Word) : (s.setI w).st = s.st := rfl
@[simp] theorem State.setI_mem (w : Word) : (s.setI w).mem = s.mem := rfl
@[simp] theorem State.setI_disp (w : Word) : (s.setI w).disp = s.disp := rfl
@[simp] theorem State.setI_key (w : Word) : (s.setI w).key = s.key := rfl
@[simp] theorem State.setI_audioOn (w : Word) : (s.setI w).audioOn = s.audioOn := rfl
@[simp] theorem State.setI_status (w : Word) : (s.setI w).status = s.status := rfl
@[simp] theorem State.setI_params (w : Word) : (s.setI w).params = s.params := rfl
@[simp] theorem State.setI_draws (w : Word) : (s.setI w).draws = s.draws := rfl
@[simp] theorem State.setI_sched (w : Word) : (s.setI w).sched = s.sched := rfl
@[simp] theorem State.setI_audioOut (w : Word) : (s.setI w).audioOut = s.audioOut := rfl
@[simp] theorem State.readV_setI (w : Word) (q : Reg) : (s.setI w).readV q = s.readV q := rfl
@[simp] theorem State.readMem_setI (w : Word) (n' : Nat) : (s.setI w).readMem n' = s.readMem n' := rfl
@[simp] theorem State.readKey_setI (w : Word) (q : Key) : (s.setI w).readKey q = s.readKey q := rfl

/-! ### setPc -/

@[simp] theorem State.setPc_v (w : Word) : (s.setPc w).v = s.v := rfl
@[simp] theorem State.setPc_i (w : Word) : (s.setPc w).i = s.i := rfl
@[simp] theorem State.setPc_pc (w : Word) : (s.setPc w).pc = w := rfl
@[simp] theorem State.setPc_stack (w : Word) : (s.setPc w).stack = s.stack := rfl
@[simp] theorem State.setPc_dt (w : Word) : (s.setPc w).dt = s.dt := rfl
@[simp] theorem State.setPc_st (w : Word) : (s.setPc w).st = s.st := rfl
@[simp] theorem State.setPc_mem (w : Word) : (s.setPc w).mem = s.mem := rfl
@[simp] theorem State.setPc_disp (w : Word) : (s.setPc w).disp = s.disp := rfl
@[simp] theorem State.setPc_key (w : Word) : (s.setPc w).key = s.key := rfl
@[simp] theorem State.setPc_audioOn (w : Word) : (s.setPc w).audioOn = s.audioOn := rfl
@[simp] theorem State.setPc_status (w : Word) : (s.setPc w).status = s.status := rfl
@[simp] theorem State.setPc_params (w : Word) : (s.setPc w).params = s.params := rfl
@[simp] theorem State.setPc_draws (w : Word) : (s.setPc w).draws = s.draws := rfl
@[simp] theorem State.setPc_sched (w : Word) : (s.setPc w).sched = s.sched := rfl
@[simp] theorem State.setPc_audioOut (w : Word) : (s.setPc w).audioOut = s.audioOut := rfl
@[simp] theorem State.readV_setPc (w : Word) (q : Reg) : (s.setPc w).readV q = s.readV q := rfl
@[simp] theorem State.readMem_setPc (w : Word) (n' : Nat) : (s.setPc w).readMem n' = s.readMem n' := rfl
@[simp] theorem State.readKey_setPc (w : Word) (q : Key) : (s.setPc w).readKey q = s.readKey q := rfl

/-! ### setStack -/

@[simp] theorem State.setStack_v (l : List Word) : (s.setStack l).v = s.v := rfl
@[simp] theorem State.setStack_i (l : List Word) : (s.setStack l).i = s.i := rfl
@[simp] theorem State.setStack_pc (l : List Word) : (s.setStack l).pc = s.pc := rfl
@[simp] theorem State.setStack_stack (l : List Word) : (s.setStack l).stack = l := rfl
@[simp] theorem State.setStack_dt (l : List Word) : (s.setStack l).dt = s.dt := rfl
@[simp] theorem State.setStack_st (l : List Word) : (s.setStack l).st = s.st := rfl
@[simp] theorem State.setStack_mem (l : List Word) : (s.setStack l).mem = s.mem := rfl
@[simp] theorem State.setStack_disp (l : List Word) : (s.setStack l).disp = s.disp := rfl
@[simp] theorem State.setStack_key (l : List Word) : (s.setStack l).key = s.key := rfl
@[simp] theorem State.setStack_audioOn (l : List Word) : (s.setStack l).audioOn = s.audioOn := rfl
@[simp] theorem State.setStack_status (l : List Word) : (s.setStack l).status = s.status := rfl
@[simp] theorem State.setStack_params (l : List Word) : (s.setStack l).params = s.params := rfl
@[simp] theorem State.setStack_draws (l : List Word) : (s.setStack l).draws = s.draws := rfl
@[simp] theorem State.setStack_sched (l : List Word) : (s.setStack l).sched = s.sched := rfl
@[simp] theorem State.setStack_audioOut (l : List Word) : (s.setStack l).audioOut = s.audioOut := rfl
@[simp] theorem State.readV_setStack (l : List Word) (q : Reg) : (s.setStack l).readV q = s.readV q := rfl
@[simp] theorem State.readMem_setStack (l : List Word) (n' : Nat) : (s.setStack l).readMem n' = s.readMem n' := rfl
@[simp] theorem State.readKey_setStack (l : List Word) (q : Key) : (s.setStack l).readKey q = s.readKey q := rfl

/-! ### setDT -/

@[simp] theorem State.setDT_v (b : Byte) : (s.setDT b).v = s.v := rfl
@[simp] theorem State.setDT_i (b : Byte) : (s.setDT b).i = s.i := rfl
@[simp] theorem State.setDT_pc (b : Byte) : (s.setDT b).pc = s.pc := rfl
@[simp] theorem State.setDT_stack (b : Byte) : (s.setDT b).stack = s.stack := rfl
@[simp] theorem State.setDT_dt (b : Byte) : (s.setDT b).dt = b := rfl
@[simp] theorem State.setDT_st (b : Byte) : (s.setDT b).st = s.st := rfl
@[simp] theorem State.setDT_mem (b : Byte) : (s.setDT b).mem = s.mem := rfl
@[simp] theorem State.setDT_disp (b : Byte) : (s.setDT b).disp = s.disp := rfl
@[simp] theorem State.setDT_key (b : Byte) : (s.setDT b).key = s.key := rfl
@[simp] theorem State.setDT_audioOn (b : Byte) : (s.setDT b).audioOn = s.audioOn := rfl
@[simp] theorem State.setDT_status (b : Byte) : (s.setDT b).status = s.status := rfl
@[simp] theorem State.setDT_params (b : Byte) : (s.setDT b).params = s.params := rfl
@[simp] theorem State.setDT_draws (b : Byte) : (s.setDT b).draws = s.draws := rfl
@[simp] theorem State.setDT_sched (b : Byte) : (s.setDT b).sched = s.sched := rfl
@[simp] theorem State.setDT_audioOut (b : Byte) : (s.setDT b).audioOut = s.audioOut := rfl
@[simp] theorem State.readV_setDT (b : Byte) (q : Reg) : (s.setDT b).readV q = s.readV q := rfl
@[simp] theorem State.readMem_setDT (b : Byte) (n' : Nat) : (s.setDT b).readMem n' = s.readMem n' := rfl
@[simp] theorem State.readKey_setDT (b : Byte) (q : Key) : (s.setDT b).readKey q = s.readKey q := rfl

/-! ### setST -/

@[simp] theorem State.setST_v (b : Byte) : (s.setST b).v = s.v := rfl
@[simp] theorem State.setST_i (b : Byte) : (s.setST b).i = s.i := rfl
@[simp] theorem State.setST_pc (b : Byte) : (s.setST b).pc = s.pc := rfl
@[simp] theorem State.setST_stack (b : Byte) : (s.setST b).stack = s.stack := rfl
@[simp] theorem State.setST_dt (b : Byte) : (s.setST b).dt = s.dt := rfl
@[simp] theorem State.setST_st (b : Byte) : (s.setST b).st = b := rfl
@[simp] theorem State.setST_mem (b : Byte) : (s.setST b).mem = s.mem := rfl
@[simp] theorem State.setST_disp (b : Byte) : (s.setST b).disp = s.disp := rfl
@[simp] theorem State.setST_key (b : Byte) : (s.setST b).key = s.key := rfl
@[simp] theorem State.setST_audioOn (b : Byte) : (s.setST b).audioOn = s.audioOn := rfl
@[simp] theorem State.setST_status (b : Byte) : (s.setST b).status = s.status := rfl
@[simp] theorem State.setST_params (b : Byte) : (s.setST b).params = s.params := rfl
@[simp] theorem State.setST_draws (b : Byte) : (s.setST b).draws = s.draws := rfl
@[simp] theorem State.setST_sched (b : Byte) : (s.setST b).sched = s.sched := rfl
@[simp] theorem State.setST_audioOut (b : Byte) : (s.setST b).audioOut = s.audioOut := rfl
@[simp] theorem State.readV_setST (b : Byte) (q : Reg) : (s.setST b).readV q = s.readV q := rfl
@[simp] theorem State.readMem_setST (b : Byte) (n' : Nat) : (s.setST b).readMem n' = s.readMem n' := rfl
@[simp] theorem State.readKey_setST (b : Byte) (q : Key) : (s.setST b).readKey q = s.readKey q := rfl

/-! ### setMem -/

@[simp] theorem State.setMem_v (m : Memory) : (s.setMem m).v = s.v := rfl
@[simp] theorem State.setMem_i (m : Memory) : (s.setMem m).i = s.i := rfl
@[simp] theorem State.setMem_pc (m : Memory) : (s.setMem m).pc = s.pc := rfl
@[simp] theorem State.setMem_stack (m : Memory) : (s.setMem m).stack = s.stack := rfl
@[simp] theorem State.setMem_dt (m : Memory) : (s.setMem m).dt = s.dt := rfl
@[simp] theorem State.setMem_st (m : Memory) : (s.setMem m).st = s.st := rfl
@[simp] theorem State.setMem_mem (m : Memory) : (s.setMem m).mem = m := rfl
@[simp] theorem State.setMem_disp (m : Memory) : (s.setMem m).disp = s.disp := rfl
@[simp] theorem State.setMem_key (m : Memory) : (s.setMem m).key = s.key := rfl
@[simp] theorem State.setMem_audioOn (m : Memory) : (s.setMem m).audioOn = s.audioOn := rfl
@[simp] theorem State.setMem_status (m : Memory) : (s.setMem m).status = s.status := rfl
@[simp] theorem State.setMem_params (m : Memory) : (s.setMem m).params = s.params := rfl
@[simp] theorem State.setMem_draws (m : Memory) : (s.setMem m).draws = s.draws := rfl
@[simp] theorem State.setMem_sched (m : Memory) : (s.setMem m).sched = s.sched := rfl
@[simp] theorem State.setMem_audioOut (m : Memory) : (s.setMem m).audioOut = s.audioOut := rfl
@[simp] theorem State.readV_setMem (m : Memory) (q : Reg) : (s.setMem m).readV q = s.readV q := rfl
@[simp] theorem State.readMem_setMem (m : Memory) (n' : Nat) : (s.setMem m).readMem n' = Memory.read m n' := rfl
@[simp] theorem State.readKey_setMem (m : Memory) (q : Key) : (s.setMem m).readKey q = s.readKey q := rfl

/-! ### setDisp -/

@[simp] theorem State.setDisp_v (d : Display) : (s.setDisp d).v = s.v := rfl
@[simp] theorem State.setDisp_i (d : Display) : (s.setDisp d).i = s.i := rfl
@[simp] theorem State.setDisp_pc (d : Display) : (s.setDisp d).pc = s.pc := rfl
@[simp] theorem State.setDisp_stack (d : Display) : (s.setDisp d).stack = s.stack := rfl
@[simp] theorem State.setDisp_dt (d : Display) : (s.setDisp d).dt = s.dt := rfl
@[simp] theorem State.setDisp_st (d : Display) : (s.setDisp d).st = s.st := rfl
@[simp] theorem State.setDisp_mem (d : Display) : (s.setDisp d).mem = s.mem := rfl
@[simp] theorem State.setDisp_disp (d : Display) : (s.setDisp d).disp = d := rfl
@[simp] theorem State.setDisp_key (d : Display) : (s.setDisp d).key = s.key := rfl
@[simp] theorem State.setDisp_audioOn (d : Display) : (s.setDisp d).audioOn = s.audioOn := rfl
@[simp] theorem State.setDisp_status (d : Display) : (s.setDisp d).status = s.status := rfl
@[simp] theorem State.setDisp_params (d : Display) : (s.setDisp d).params = s.params := rfl
@[simp] theorem State.setDisp_draws (d : Display) : (s.setDisp d).draws = s.draws := rfl
@[simp] theorem State.setDisp_sched (d : Display) : (s.setDisp d).sched = s.sched := rfl
@[simp] theorem State.setDisp_audioOut (d : Display) : (s.setDisp d).audioOut = s.audioOut := rfl
@[simp] theorem State.readV_setDisp (d : Display) (q : Reg) : (s.setDisp d).readV q = s.readV q := rfl
@[simp] theorem State.readMem_setDisp (d : Display) (n' : Nat) : (s.setDisp d).readMem n' = s.readMem n' := rfl
@[simp] theorem State.readKey_setDisp (d : Display) (q : Key) : (s.setDisp d).readKey q = s.readKey q := rfl

/-! ### setKey -/

@[simp] theorem State.setKey_v (k : Key) (down : Bool) : (s.setKey k down).v = s.v := rfl
@[simp] theorem State.setKey_i (k : Key) (down : Bool) : (s.setKey k down).i = s.i := rfl
@[simp] theorem State.setKey_pc (k : Key) (down : Bool) : (s.setKey k down).pc = s.pc := rfl
@[simp] theorem State.setKey_stack (k : Key) (down : Bool) : (s.setKey k down).stack = s.stack := rfl
@[simp] theorem State.setKey_dt (k : Key) (down : Bool) : (s.setKey k down).dt = s.dt := rfl
@[simp] theorem State.setKey_st (k : Key) (down : Bool) : (s.setKey k down).st = s.st := rfl
@[simp] theorem State.setKey_mem (k : Key) (down : Bool) : (s.setKey k down).mem = s.mem := rfl
@[simp] theorem State.setKey_disp (k : Key) (down : Bool) : (s.setKey k down).disp = s.disp := rfl
@[simp] theorem State.setKey_key (k : Key) (down : Bool) : (s.setKey k down).key = s.key.set k.val down k.isLt := rfl
@[simp] theorem State.setKey_audioOn (k : Key) (down : Bool) : (s.setKey k down).audioOn = s.audioOn := rfl
@[simp] theorem State.setKey_status (k : Key) (down : Bool) : (s.setKey k down).status = s.status := rfl
@[simp] theorem State.setKey_params (k : Key) (down : Bool) : (s.setKey k down).params = s.params := rfl
@[simp] theorem State.setKey_draws (k : Key) (down : Bool) : (s.setKey k down).draws = s.draws := rfl
@[simp] theorem State.setKey_sched (k : Key) (down : Bool) : (s.setKey k down).sched = s.sched := rfl
@[simp] theorem State.setKey_audioOut (k : Key) (down : Bool) : (s.setKey k down).audioOut = s.audioOut := rfl
@[simp] theorem State.readV_setKey (k : Key) (down : Bool) (q : Reg) : (s.setKey k down).readV q = s.readV q := rfl
@[simp] theorem State.readMem_setKey (k : Key) (down : Bool) (n' : Nat) : (s.setKey k down).readMem n' = s.readMem n' := rfl

/-! ### setAudio -/

@[simp] theorem State.setAudio_v (level : Bool) : (s.setAudio level).v = s.v := rfl
@[simp] theorem State.setAudio_i (level : Bool) : (s.setAudio level).i = s.i := rfl
@[simp] theorem State.setAudio_pc (level : Bool) : (s.setAudio level).pc = s.pc := rfl
@[simp] theorem State.setAudio_stack (level : Bool) : (s.setAudio level).stack = s.stack := rfl
@[simp] theorem State.setAudio_dt (level : Bool) : (s.setAudio level).dt = s.dt := rfl
@[simp] theorem State.setAudio_st (level : Bool) : (s.setAudio level).st = s.st := rfl
@[simp] theorem State.setAudio_mem (level : Bool) : (s.setAudio level).mem = s.mem := rfl
@[simp] theorem State.setAudio_disp (level : Bool) : (s.setAudio level).disp = s.disp := rfl
@[simp] theorem State.setAudio_key (level : Bool) : (s.setAudio level).key = s.key := rfl
@[simp] theorem State.setAudio_audioOn (level : Bool) : (s.setAudio level).audioOn = level := rfl
@[simp] theorem State.setAudio_status (level : Bool) : (s.setAudio level).status = s.status := rfl
@[simp] theorem State.setAudio_params (level : Bool) : (s.setAudio level).params = s.params := rfl
@[simp] theorem State.setAudio_draws (level : Bool) : (s.setAudio level).draws = s.draws := rfl
@[simp] theorem State.setAudio_sched (level : Bool) : (s.setAudio level).sched = s.sched := rfl
@[simp] theorem State.setAudio_audioOut (level : Bool) : (s.setAudio level).audioOut = s.audioOut := rfl
@[simp] theorem State.readV_setAudio (level : Bool) (q : Reg) : (s.setAudio level).readV q = s.readV q := rfl
@[simp] theorem State.readMem_setAudio (level : Bool) (n' : Nat) : (s.setAudio level).readMem n' = s.readMem n' := rfl
@[simp] theorem State.readKey_setAudio (level : Bool) (q : Key) : (s.setAudio level).readKey q = s.readKey q := rfl

/-! ### setStatus -/

@[simp] theorem State.setStatus_v (x : Status) : (s.setStatus x).v = s.v := rfl
@[simp] theorem State.setStatus_i (x : Status) : (s.setStatus x).i = s.i := rfl
@[simp] theorem State.setStatus_pc (x : Status) : (s.setStatus x).pc = s.pc := rfl
@[simp] theorem State.setStatus_stack (x : Status) : (s.setStatus x).stack = s.stack := rfl
@[simp] theorem State.setStatus_dt (x : Status) : (s.setStatus x).dt = s.dt := rfl
@[simp] theorem State.setStatus_st (x : Status) : (s.setStatus x).st = s.st := rfl
@[simp] theorem State.setStatus_mem (x : Status) : (s.setStatus x).mem = s.mem := rfl
@[simp] theorem State.setStatus_disp (x : Status) : (s.setStatus x).disp = s.disp := rfl
@[simp] theorem State.setStatus_key (x : Status) : (s.setStatus x).key = s.key := rfl
@[simp] theorem State.setStatus_audioOn (x : Status) : (s.setStatus x).audioOn = s.audioOn := rfl
@[simp] theorem State.setStatus_status (x : Status) : (s.setStatus x).status = x := rfl
@[simp] theorem State.setStatus_params (x : Status) : (s.setStatus x).params = s.params := rfl
@[simp] theorem State.setStatus_draws (x : Status) : (s.setStatus x).draws = s.draws := rfl
@[simp] theorem State.setStatus_sched (x : Status) : (s.setStatus x).sched = s.sched := rfl
@[simp] theorem State.setStatus_audioOut (x : Status) : (s.setStatus x).audioOut = s.audioOut := rfl
@[simp] theorem State.readV_setStatus (x : Status) (q : Reg) : (s.setStatus x).readV q = s.readV q := rfl
@[simp] theorem State.readMem_setStatus (x : Status) (n' : Nat) : (s.setStatus x).readMem n' = s.readMem n' := rfl
@[simp] theorem State.readKey_setStatus (x : Status) (q : Key) : (s.setStatus x).readKey q = s.readKey q := rfl

/-! ### setDraws -/

@[simp] theorem State.setDraws_v (n : Nat) : (s.setDraws n).v = s.v := rfl
@[simp] theorem State.setDraws_i (n : Nat) : (s.setDraws n).i = s.i := rfl
@[simp] theorem State.setDraws_pc (n : Nat) : (s.setDraws n).pc = s.pc := rfl
@[simp] theorem State.setDraws_stack (n : Nat) : (s.setDraws n).stack = s.stack := rfl
@[simp] theorem State.setDraws_dt (n : Nat) : (s.setDraws n).dt = s.dt := rfl
@[simp] theorem State.setDraws_st (n : Nat) : (s.setDraws n).st = s.st := rfl
@[simp] theorem State.setDraws_mem (n : Nat) : (s.setDraws n).mem = s.mem := rfl
@[simp] theorem State.setDraws_disp (n : Nat) : (s.setDraws n).disp = s.disp := rfl
@[simp] theorem State.setDraws_key (n : Nat) : (s.setDraws n).key = s.key := rfl
@[simp] theorem State.setDraws_audioOn (n : Nat) : (s.setDraws n).audioOn = s.audioOn := rfl
@[simp] theorem State.setDraws_status (n : Nat) : (s.setDraws n).status = s.status := rfl
@[simp] theorem State.setDraws_params (n : Nat) : (s.setDraws n).params = s.params := rfl
@[simp] theorem State.setDraws_draws (n : Nat) : (s.setDraws n).draws = n := rfl
@[simp] theorem State.setDraws_sched (n : Nat) : (s.setDraws n).sched = s.sched := rfl
@[simp] theorem State.setDraws_audioOut (n : Nat) : (s.setDraws n).audioOut = s.audioOut := rfl
@[simp] theorem State.readV_setDraws (n : Nat) (q : Reg) : (s.setDraws n).readV q = s.readV q := rfl
@[simp] theorem State.readMem_setDraws (n : Nat) (n' : Nat) : (s.setDraws n).readMem n' = s.readMem n' := rfl
@[simp] theorem State.readKey_setDraws (n : Nat) (q : Key) : (s.setDraws n).readKey q = s.readKey q := rfl

/-! ### setSched -/

@[simp] theorem State.setSched_v (l : List Event) : (s.setSched l).v = s.v := rfl
@[simp] theorem State.setSched_i (l : List Event) : (s.setSched l).i = s.i := rfl
@[simp] theorem State.setSched_pc (l : List Event) : (s.setSched l).pc = s.pc := rfl
@[simp] theorem State.setSched_stack (l : List Event) : (s.setSched l).stack = s.stack := rfl
@[simp] theorem State.setSched_dt (l : List Event) : (s.setSched l).dt = s.dt := rfl
@[simp] theorem State.setSched_st (l : List Event) : (s.setSched l).st = s.st := rfl
@[simp] theorem State.setSched_mem (l : List Event) : (s.setSched l).mem = s.mem := rfl
@[simp] theorem State.setSched_disp (l : List Event) : (s.setSched l).disp = s.disp := rfl
@[simp] theorem State.setSched_key (l : List Event) : (s.setSched l).key = s.key := rfl
@[simp] theorem State.setSched_audioOn (l : List Event) : (s.setSched l).audioOn = s.audioOn := rfl
@[simp] theorem State.setSched_status (l : List Event) : (s.setSched l).status = s.status := rfl
@[simp] theorem State.setSched_params (l : List Event) : (s.setSched l).params = s.params := rfl
@[simp] theorem State.setSched_draws (l : List Event) : (s.setSched l).draws = s.draws := rfl
@[simp] theorem State.setSched_sched (l : List Event) : (s.setSched l).sched = l := rfl
@[simp] theorem State.setSched_audioOut (l : List Event) : (s.setSched l).audioOut = s.audioOut := rfl
@[simp] theorem State.readV_setSched (l : List Event) (q : Reg) : (s.setSched l).readV q = s.readV q := rfl
@[simp] theorem State.readMem_setSched (l : List Event) (n' : Nat) : (s.setSched l).readMem n' = s.readMem n' := rfl
@[simp] theorem State.readKey_setSched (l : List Event) (q : Key) : (s.setSched l).readKey q = s.readKey q := rfl

/-! ### emit -/

@[simp] theorem State.emit_v (sig : AudioSignal) : (s.emit sig).v = s.v := rfl
@[simp] theorem State.emit_i (sig : AudioSignal) : (s.emit sig).i = s.i := rfl
@[simp] theorem State.emit_pc (sig : AudioSignal) : (s.emit sig).pc = s.pc := rfl
@[simp] theorem State.emit_stack (sig : AudioSignal) : (s.emit sig).stack = s.stack := rfl
@[simp] theorem State.emit_dt (sig : AudioSignal) : (s.emit sig).dt = s.dt := rfl
@[simp] theorem State.emit_st (sig : AudioSignal) : (s.emit sig).st = s.st := rfl
@[simp] theorem State.emit_mem (sig : AudioSignal) : (s.emit sig).mem = s.mem := rfl
@[simp] theorem State.emit_disp (sig : AudioSignal) : (s.emit sig).disp = s.disp := rfl
@[simp] theorem State.emit_key (sig : AudioSignal) : (s.emit sig).key = s.key := rfl
@[simp] theorem State.emit_audioOn (sig : AudioSignal) : (s.emit sig).audioOn = s.audioOn := rfl
@[simp] theorem State.emit_status (sig : AudioSignal) : (s.emit sig).status = s.status := rfl
@[simp] theorem State.emit_params (sig : AudioSignal) : (s.emit sig).params = s.params := rfl
@[simp] theorem State.emit_draws (sig : AudioSignal) : (s.emit sig).draws = s.draws := rfl
@[simp] theorem State.emit_sched (sig : AudioSignal) : (s.emit sig).sched = s.sched := rfl
@[simp] theorem State.emit_audioOut (sig : AudioSignal) : (s.emit sig).audioOut = s.audioOut ++ [sig] := rfl
@[simp] theorem State.readV_emit (sig : AudioSignal) (q : Reg) : (s.emit sig).readV q = s.readV q := rfl
@[simp] theorem State.readMem_emit (sig : AudioSignal) (n' : Nat) : (s.emit sig).readMem n' = s.readMem n' := rfl
@[simp] theorem State.readKey_emit (sig : AudioSignal) (q : Key) : (s.emit sig).readKey q = s.readKey q := rfl

/-- A register reads as written, every other one as before (R13, R21). -/
theorem State.readV_setV (r q : Reg) (b : Byte) : (s.setV r b).readV q = if q = r then b else s.readV q := by
  by_cases h : q = r
  · subst h; simp [State.readV, State.setV]
  · have h' : r.val ≠ q.val := fun e => h (Fin.ext e.symm)
    simp [State.readV, State.setV, h, h']

/-- A key reads as set, every other one as before (R30). -/
theorem State.readKey_setKey (k q : Key) (down : Bool) : (s.setKey k down).readKey q = if q = k then down else s.readKey q := by
  by_cases h : q = k
  · subst h; simp [State.readKey, State.setKey]
  · have h' : k.val ≠ q.val := fun e => h (Fin.ext e.symm)
    simp [State.readKey, State.setKey, h, h']

/-- Register files that read alike are equal. -/
theorem regs_ext (v w : Vector Byte 16) (h : ∀ r : Reg, v[r.val]'r.isLt = w[r.val]'r.isLt) : v = w :=
  Vector.ext fun k hk => h ⟨k, hk⟩

/-! ### raiseStop: sets the status and nothing else (R232) -/

@[simp] theorem raiseStop_v (reason : StopReason) (info : Nat) : (raiseStop reason info s).v = s.v := rfl
@[simp] theorem raiseStop_i (reason : StopReason) (info : Nat) : (raiseStop reason info s).i = s.i := rfl
@[simp] theorem raiseStop_pc (reason : StopReason) (info : Nat) : (raiseStop reason info s).pc = s.pc := rfl
@[simp] theorem raiseStop_stack (reason : StopReason) (info : Nat) : (raiseStop reason info s).stack = s.stack := rfl
@[simp] theorem raiseStop_dt (reason : StopReason) (info : Nat) : (raiseStop reason info s).dt = s.dt := rfl
@[simp] theorem raiseStop_st (reason : StopReason) (info : Nat) : (raiseStop reason info s).st = s.st := rfl
@[simp] theorem raiseStop_mem (reason : StopReason) (info : Nat) : (raiseStop reason info s).mem = s.mem := rfl
@[simp] theorem raiseStop_disp (reason : StopReason) (info : Nat) : (raiseStop reason info s).disp = s.disp := rfl
@[simp] theorem raiseStop_key (reason : StopReason) (info : Nat) : (raiseStop reason info s).key = s.key := rfl
@[simp] theorem raiseStop_audioOn (reason : StopReason) (info : Nat) : (raiseStop reason info s).audioOn = s.audioOn := rfl
@[simp] theorem raiseStop_status (reason : StopReason) (info : Nat) : (raiseStop reason info s).status = .stopped ⟨reason, info⟩ := rfl
@[simp] theorem raiseStop_params (reason : StopReason) (info : Nat) : (raiseStop reason info s).params = s.params := rfl
@[simp] theorem raiseStop_draws (reason : StopReason) (info : Nat) : (raiseStop reason info s).draws = s.draws := rfl
@[simp] theorem raiseStop_sched (reason : StopReason) (info : Nat) : (raiseStop reason info s).sched = s.sched := rfl
@[simp] theorem raiseStop_audioOut (reason : StopReason) (info : Nat) : (raiseStop reason info s).audioOut = s.audioOut := rfl

/-- A stop changes the status alone (R232). -/
theorem raiseStop_frame (reason : StopReason) (info : Nat) :
    raiseStop reason info s = s.setStatus (.stopped ⟨reason, info⟩) := rfl

end Sys2Proof.Machine
end

