-- ==== Sys2Proof/Laws/Display.lean ====
section
/-! SUPPORT. What the display operations do, pixel by pixel: a flip inverts its pixel, a clear leaves none, and a blit inverts
exactly the covered pixels and reports a collision exactly when a covered pixel was set (43_display.md R183). -/

namespace Sys2Proof.Machine

/-- Grids that agree on every pixel are equal. -/
theorem Display.ext_pixel {d e : Display} (h : ∀ px py, px < 64 → py < 32 → d.pixel px py = e.pixel px py) : d = e := by
  refine Vector.ext fun px hx => Vector.ext fun py hy => ?_
  simpa [Display.pixel, displayW, displayH, hx, hy] using h px py hx hy

theorem Display.pixel_off (d : Display) {px py : Nat} (h : ¬ (px < 64 ∧ py < 32)) : d.pixel px py = false :=
  dif_neg h

theorem Display.pixel_clear (px py : Nat) : Display.clear.pixel px py = false := by
  by_cases h : px < 64 ∧ py < 32
  · simp [Display.pixel, displayW, displayH, h, Display.clear]
  · exact Display.pixel_off _ h

/-- A flip inverts its own pixel and no other. -/
theorem Display.pixel_flip (d : Display) {a b : Nat} (ha : a < 64) (hb : b < 32) (px py : Nat) :
    (d.flip a b).pixel px py = if px = a ∧ py = b then !d.pixel px py else d.pixel px py := by
  by_cases h : px < 64 ∧ py < 32
  · have hflip : d.flip a b = d.set a (d[a].set b (!d[a][b]) hb) ha := dif_pos ⟨ha, hb⟩
    have hp : ∀ e : Display, e.pixel px py = (e[px]'h.1)[py]'h.2 := fun e => dif_pos h
    rw [hp, hp, hflip, Vector.getElem_set]
    by_cases hpa : a = px
    · subst hpa
      rw [if_pos rfl, Vector.getElem_set]
      by_cases hpb : b = py
      · subst hpb; simp
      · rw [if_neg hpb, if_neg fun e => hpb e.2.symm]
    · rw [if_neg hpa, if_neg fun e => hpa e.1.symm]
  · rw [Display.pixel_off _ h, Display.pixel_off _ h, if_neg]
    rintro ⟨rfl, rfl⟩
    exact h ⟨ha, hb⟩

/-! ## A row -/

/-- Whether the first `k` columns of a row drawn at `(x0, py)` cover a pixel. -/
def rowCovers (x0 py : Nat) (row : Byte) (k px q : Nat) : Bool :=
  q == py && (decide (x0 ≤ px) && decide (px < x0 + k)) && spriteBit row (px - x0)

theorem rowCovers_zero (x0 py : Nat) (row : Byte) (px q : Nat) : rowCovers x0 py row 0 px q = false := by
  simp [rowCovers]

theorem rowCovers_succ (x0 py : Nat) (row : Byte) (k px q : Nat) :
    rowCovers x0 py row (k + 1) px q =
      if px = x0 + k ∧ q = py then spriteBit row k else rowCovers x0 py row k px q := by
  by_cases hq : q = py
  · by_cases hp : px = x0 + k
    · subst hp hq
      have : x0 + k - x0 = k := by omega
      simp [rowCovers, this]
    · have : (px < x0 + (k + 1)) ↔ (px < x0 + k) := by omega
      simp [rowCovers, hp, this]
  · rw [if_neg fun h => hq h.2, rowCovers, rowCovers, beq_false_of_ne hq]
    rfl

/-- After the first `k` columns of a row, exactly the covered pixels are inverted. -/
theorem pixel_blitCols (x0 py : Nat) (row : Byte) (dc : Display × Bool) (k px q : Nat) (hx : px < 64) (hq : q < 32) :
    ((List.range k).foldl (blitPixel x0 py row) dc).1.pixel px q =
      (rowCovers x0 py row k px q ^^ dc.1.pixel px q) := by
  induction k with
  | zero => simp [rowCovers_zero]
  | succ k ih =>
    rw [List.range_succ, List.foldl_append, List.foldl_cons, List.foldl_nil, blitPixel, rowCovers_succ]
    set e := (List.range k).foldl (blitPixel x0 py row) dc
    by_cases hp : px = x0 + k ∧ q = py
    · obtain ⟨rfl, rfl⟩ := hp
      have h0 : rowCovers x0 q row k (x0 + k) q = false := by simp [rowCovers]
      rw [h0] at ih
      by_cases hb : spriteBit row k = true
      · rw [if_pos ⟨hq, hx, hb⟩, Display.pixel_flip _ hx hq, if_pos ⟨rfl, rfl⟩, if_pos ⟨rfl, rfl⟩, ih, hb]
        simp
      · rw [if_neg fun h => hb h.2.2, if_pos ⟨rfl, rfl⟩, ih]
        simp [hb]
    · rw [if_neg hp]
      split
      · next h => rw [Display.pixel_flip _ h.2.1 h.1, if_neg hp, ih]
      · exact ih

/-- After the first `k` columns of a row, the collision bit is set if it was, or if a covered pixel on the grid was set. -/
theorem collision_blitCols (x0 py : Nat) (row : Byte) (dc : Display × Bool) (k : Nat) :
    ((List.range k).foldl (blitPixel x0 py row) dc).2 = true ↔
      dc.2 = true ∨ ∃ b, b < k ∧ spriteBit row b = true ∧ dc.1.pixel (x0 + b) py = true := by
  induction k with
  | zero => simp
  | succ k ih =>
    have hpix := pixel_blitCols x0 py row dc k (x0 + k) py
    rw [List.range_succ, List.foldl_append, List.foldl_cons, List.foldl_nil, blitPixel]
    set e := (List.range k).foldl (blitPixel x0 py row) dc
    have hsplit : (∃ b, b < k + 1 ∧ spriteBit row b = true ∧ dc.1.pixel (x0 + b) py = true) ↔
        (∃ b, b < k ∧ spriteBit row b = true ∧ dc.1.pixel (x0 + b) py = true) ∨
        (spriteBit row k = true ∧ dc.1.pixel (x0 + k) py = true) := by
      constructor
      · rintro ⟨b, hb, h⟩
        rcases Nat.lt_succ_iff_lt_or_eq.1 hb with hb | rfl
        · exact .inl ⟨b, hb, h⟩
        · exact .inr h
      · rintro (⟨b, hb, h⟩ | h)
        · exact ⟨b, by omega, h⟩
        · exact ⟨k, by omega, h⟩
    rw [hsplit, ← or_assoc, ← ih]
    by_cases hg : py < displayH ∧ x0 + k < displayW
    · have h0 : rowCovers x0 py row k (x0 + k) py = false := by simp [rowCovers]
      have hp : e.1.pixel (x0 + k) py = dc.1.pixel (x0 + k) py := by rw [hpix hg.2 hg.1, h0]; simp
      by_cases hb : spriteBit row k = true
      · rw [if_pos ⟨hg.1, hg.2, hb⟩]
        simp [hb, hp]
      · rw [if_neg fun h => hb h.2.2]
        simp [hb]
    · rw [if_neg fun h => hg ⟨h.1, h.2.1⟩, Display.pixel_off dc.1 fun h => hg ⟨h.2, h.1⟩]
      simp

theorem pixel_blitRow (x0 py : Nat) (row : Byte) (dc : Display × Bool) (px q : Nat) (hx : px < 64) (hq : q < 32) :
    (blitRow x0 py row dc).1.pixel px q = (rowCovers x0 py row 8 px q ^^ dc.1.pixel px q) :=
  pixel_blitCols x0 py row dc 8 px q hx hq

theorem rowCovers_other_row (x0 py : Nat) (row : Byte) (k px q : Nat) (h : q ≠ py) : rowCovers x0 py row k px q = false := by
  simp [rowCovers, h]

/-! ## A sprite -/

/-- Whether a sprite drawn at `(x0, py)` covers a pixel with a set bit (the `drawn(r, b)` of R183, before clipping). -/
def Covers (x0 py : Nat) (rows : List Byte) (px q : Nat) : Prop :=
  ∃ r b, r < rows.length ∧ b < 8 ∧ px = x0 + b ∧ q = py + r ∧ spriteBit (rows.getD r 0) b = true

theorem rowCovers_iff (x0 py : Nat) (row : Byte) (k px q : Nat) :
    rowCovers x0 py row k px q = true ↔ q = py ∧ ∃ b, b < k ∧ px = x0 + b ∧ spriteBit row b = true := by
  constructor
  · intro h
    simp only [rowCovers, Bool.and_eq_true, beq_iff_eq, decide_eq_true_eq] at h
    exact ⟨h.1.1, px - x0, by omega, by omega, h.2⟩
  · rintro ⟨rfl, b, hb, rfl, h⟩
    have : x0 + b - x0 = b := by omega
    simp [rowCovers, this, h, hb]

theorem covers_cons (x0 py : Nat) (row : Byte) (rows : List Byte) (px q : Nat) :
    Covers x0 py (row :: rows) px q ↔ rowCovers x0 py row 8 px q = true ∨ Covers x0 (py + 1) rows px q := by
  rw [rowCovers_iff]
  constructor
  · rintro ⟨r, b, hr, hb, hx, hq, h⟩
    cases r with
    | zero => exact .inl ⟨by omega, b, hb, hx, by simpa using h⟩
    | succ r => exact .inr ⟨r, b, by simpa using hr, hb, hx, by omega, by simpa using h⟩
  · rintro (⟨hq, b, hb, hx, h⟩ | ⟨r, b, hr, hb, hx, hq, h⟩)
    · exact ⟨0, b, by simp, hb, hx, by omega, by simpa using h⟩
    · exact ⟨r + 1, b, by simpa using hr, hb, hx, by omega, by simpa using h⟩

theorem not_covers_above (x0 py : Nat) (rows : List Byte) (px q : Nat) (h : q < py) : ¬ Covers x0 py rows px q := by
  rintro ⟨r, b, _, _, _, hq, _⟩
  omega

/-- A blit inverts every covered pixel of the grid and leaves every other one. -/
theorem pixel_blit (x0 py : Nat) (rows : List Byte) (dc : Display × Bool) (px q : Nat) (hx : px < 64) (hq : q < 32) :
    (Covers x0 py rows px q → (blit x0 py rows dc).1.pixel px q = !dc.1.pixel px q) ∧
    (¬ Covers x0 py rows px q → (blit x0 py rows dc).1.pixel px q = dc.1.pixel px q) := by
  induction rows generalizing py dc with
  | nil => exact ⟨fun ⟨r, _, hr, _⟩ => absurd hr (by simp), fun _ => rfl⟩
  | cons row rows ih =>
    have hrow := pixel_blitRow x0 py row dc px q hx hq
    obtain ⟨ih1, ih2⟩ := ih (py + 1) (blitRow x0 py row dc)
    rw [hrow] at ih1 ih2
    rw [covers_cons, blit]
    by_cases hc : rowCovers x0 py row 8 px q = true
    · have hn : ¬ Covers x0 (py + 1) rows px q :=
        not_covers_above _ _ _ _ _ (by rw [((rowCovers_iff ..).1 hc).1]; omega)
      refine ⟨fun _ => ?_, fun h => absurd (.inl hc) h⟩
      rw [ih2 hn, hc]; simp
    · rw [Bool.not_eq_true] at hc
      rw [hc, Bool.false_xor] at ih1 ih2
      simp only [hc, Bool.false_eq_true, false_or]
      exact ⟨ih1, ih2⟩

/-- A blit reports a collision exactly when it was reported before or a covered pixel was set (R183). -/
theorem collision_blit (x0 py : Nat) (rows : List Byte) (dc : Display × Bool) :
    (blit x0 py rows dc).2 = true ↔ dc.2 = true ∨ ∃ px q, Covers x0 py rows px q ∧ dc.1.pixel px q = true := by
  induction rows generalizing py dc with
  | nil => simp [blit, Covers]
  | cons row rows ih =>
    have hsame : ∀ px q, Covers x0 (py + 1) rows px q → (blitRow x0 py row dc).1.pixel px q = dc.1.pixel px q := by
      intro px q hc
      by_cases hg : px < 64 ∧ q < 32
      · have hne : q ≠ py := by rintro rfl; exact not_covers_above _ _ _ _ _ (Nat.lt_succ_self _) hc
        rw [pixel_blitRow _ _ _ _ _ _ hg.1 hg.2, rowCovers_other_row _ _ _ _ _ _ hne, Bool.false_xor]
      · rw [Display.pixel_off _ hg, Display.pixel_off _ hg]
    rw [blit, ih, blitRow, collision_blitCols]
    constructor
    · rintro ((h | ⟨b, hb, hs, hp⟩) | ⟨px, q, hc, hp⟩)
      · exact .inl h
      · exact .inr ⟨x0 + b, py, (covers_cons ..).2 (.inl ((rowCovers_iff ..).2 ⟨rfl, b, hb, rfl, hs⟩)), hp⟩
      · exact .inr ⟨px, q, (covers_cons ..).2 (.inr hc), (hsame px q hc) ▸ hp⟩
    · rintro (h | ⟨px, q, hc, hp⟩)
      · exact .inl (.inl h)
      · rcases (covers_cons ..).1 hc with h | h
        · obtain ⟨rfl, b, hb, rfl, hs⟩ := (rowCovers_iff ..).1 h
          exact .inl (.inr ⟨b, hb, hs, hp⟩)
        · exact .inr ⟨px, q, h, (hsame px q h).trans hp⟩

end Sys2Proof.Machine
end

