-- ==== Sys2Proof/Laws/Memory.lean ====
section
/-! SUPPORT. What the memory operations do: a byte reads as written, every other byte as before, and every operation keeps the
canonical form, in which equal reads are equal memories. -/

namespace Sys2Proof.Machine

theorem Memory.read_erase_self (m : Memory) (a : Nat) : Memory.read (Memory.erase m a) a = resetByte a := by
  induction m with
  | nil => rfl
  | cons c rest ih =>
    by_cases h : c.1 = a
    · simpa [Memory.erase, h] using ih
    · simpa [Memory.erase, Memory.read, h] using ih

theorem Memory.read_erase_other (m : Memory) {a b : Nat} (h : b ≠ a) :
    Memory.read (Memory.erase m a) b = Memory.read m b := by
  induction m with
  | nil => rfl
  | cons c rest ih =>
    by_cases hc : c.1 = a
    · have hb : c.1 ≠ b := fun e => h (e.symm.trans hc)
      have : Memory.erase (c :: rest) a = Memory.erase rest a := by simp [Memory.erase, hc]
      rw [this, ih, Memory.read, if_neg hb]
    · have : Memory.erase (c :: rest) a = c :: Memory.erase rest a := by simp [Memory.erase, hc]
      rw [this, Memory.read, Memory.read, ih]

theorem Memory.not_mem_erase (m : Memory) (a : Nat) : ∀ c ∈ Memory.erase m a, c.1 ≠ a := by
  simp [Memory.erase]

theorem Memory.read_insert (m : Memory) (a b : Nat) (x : Byte) (h : ∀ c ∈ m, c.1 ≠ a) :
    Memory.read (Memory.insert a x m) b = if b = a then x else Memory.read m b := by
  induction m with
  | nil =>
    by_cases hb : b = a
    · simp [Memory.insert, Memory.read, hb]
    · simp [Memory.insert, Memory.read, hb, Ne.symm hb]
  | cons c rest ih =>
    have hc : c.1 ≠ a := h c (by simp)
    have hr := ih fun d hd => h d (by simp [hd])
    by_cases hlt : a < c.1
    · by_cases hb : b = a
      · simp [Memory.insert, Memory.read, hlt, hb]
      · simp [Memory.insert, Memory.read, hlt, hb, Ne.symm hb]
    · by_cases hcb : c.1 = b
      · have hb : b ≠ a := fun e => hc (hcb.trans e)
        rw [Memory.insert, if_neg hlt, Memory.read, if_pos hcb, if_neg hb, Memory.read, if_pos hcb]
      · rw [Memory.insert, if_neg hlt, Memory.read, if_neg hcb, hr, Memory.read, if_neg hcb]

/-- A byte reads as last written (R73). -/
theorem Memory.read_write (m : Memory) (a b : Nat) (x : Byte) :
    Memory.read (Memory.write m a x) b = if b = a then x else Memory.read m b := by
  unfold Memory.write
  split
  · next hx =>
    by_cases hb : b = a
    · rw [hb, Memory.read_erase_self, if_pos rfl, hx]
    · rw [Memory.read_erase_other m hb, if_neg hb]
  · rw [Memory.read_insert _ _ _ _ (Memory.not_mem_erase m a)]
    by_cases hb : b = a
    · simp [hb]
    · rw [if_neg hb, if_neg hb, Memory.read_erase_other m hb]

/-- What a run of stored bytes leaves: the k-th at `a + k`, every byte outside the run as before. -/
theorem Memory.read_writeList (m : Memory) (a b : Nat) (xs : List Byte) :
    Memory.read (Memory.writeList m a xs) b =
      if a ≤ b ∧ b < a + xs.length then xs.getD (b - a) 0 else Memory.read m b := by
  induction xs generalizing m a with
  | nil => simp [Memory.writeList]
  | cons x xs ih =>
    rw [Memory.writeList, ih, Memory.read_write]
    by_cases hb : b = a
    · subst hb; simp
    · by_cases h : a + 1 ≤ b ∧ b < a + 1 + xs.length
      · have h2 : a ≤ b ∧ b < a + (x :: xs).length := by simp only [List.length_cons]; omega
        have h3 : b - a = (b - (a + 1)) + 1 := by omega
        rw [if_pos h, if_pos h2, h3, List.getD_cons_succ]
      · have h2 : ¬ (a ≤ b ∧ b < a + (x :: xs).length) := by simp only [List.length_cons]; omega
        rw [if_neg h, if_neg h2, if_neg hb]

theorem Memory.length_readList (m : Memory) (a n : Nat) : (Memory.readList m a n).length = n := by
  simp [Memory.readList]

theorem Memory.getD_readList (m : Memory) (a n k : Nat) (h : k < n) :
    (Memory.readList m a n).getD k 0 = Memory.read m (a + k) := by
  simp [Memory.readList, h]

/-! ## The canonical form -/

theorem Memory.wf_nil : Memory.wf [] := by decide

theorem Memory.wf_erase {m : Memory} (h : Memory.wf m) (a : Nat) : Memory.wf (Memory.erase m a) :=
  ⟨h.1.filter _, fun c hc => h.2 c (List.mem_of_mem_filter hc)⟩

theorem Memory.mem_insert (a : Nat) (x : Byte) (m : Memory) (c : Host.Cell) :
    c ∈ Memory.insert a x m ↔ c = (a, x) ∨ c ∈ m := by
  induction m with
  | nil => simp [Memory.insert]
  | cons d rest ih =>
    by_cases h : a < d.1
    · simp [Memory.insert, h]
    · simp [Memory.insert, h, ih, or_left_comm]

theorem Memory.wf_insert {m : Memory} (h : Memory.wf m) {a : Nat} {x : Byte} (ha : a < memSize) (hx : x ≠ resetByte a)
    (hm : ∀ c ∈ m, c.1 ≠ a) : Memory.wf (Memory.insert a x m) := by
  refine ⟨?_, fun c hc => ?_⟩
  · have hs := h.1
    clear h
    induction m with
    | nil => simp [Memory.insert]
    | cons d rest ih =>
      rw [List.pairwise_cons] at hs
      have hd : d.1 ≠ a := hm d (by simp)
      by_cases hlt : a < d.1
      · rw [Memory.insert, if_pos hlt, List.pairwise_cons, List.pairwise_cons]
        refine ⟨fun c hc => ?_, hs⟩
        rcases List.mem_cons.1 hc with rfl | hc
        · exact hlt
        · exact Nat.lt_trans hlt (hs.1 c hc)
      · rw [Memory.insert, if_neg hlt, List.pairwise_cons]
        refine ⟨fun c hc => ?_, ih (fun c hc => hm c (by simp [hc])) hs.2⟩
        rcases (Memory.mem_insert a x rest c).1 hc with rfl | hc
        · show d.1 < a
          omega
        · exact hs.1 c hc
  · rcases (Memory.mem_insert a x m c).1 hc with rfl | hc
    · exact ⟨ha, hx⟩
    · exact h.2 c hc

/-- A store inside memory keeps the canonical form. -/
theorem Memory.wf_write {m : Memory} (h : Memory.wf m) {a : Nat} (x : Byte) (ha : a < memSize) :
    Memory.wf (Memory.write m a x) := by
  unfold Memory.write
  split
  · exact Memory.wf_erase h a
  · next hx => exact Memory.wf_insert (Memory.wf_erase h a) ha hx (Memory.not_mem_erase m a)

/-- Stores inside memory keep the canonical form. -/
theorem Memory.wf_writeList {m : Memory} (h : Memory.wf m) (a : Nat) (xs : List Byte) (ha : a + xs.length ≤ memSize) :
    Memory.wf (Memory.writeList m a xs) := by
  induction xs generalizing m a with
  | nil => exact h
  | cons x xs ih =>
    simp only [List.length_cons] at ha
    exact ih (Memory.wf_write h x (by omega)) (a + 1) (by omega)

/-! ## The register block -/

theorem length_regBlock (s : State) (x : Reg) : (regBlock s x).length = x.val + 1 := by
  have := x.isLt
  simp only [regBlock, List.length_take, Vector.length_toList]
  omega

theorem getD_regBlock (s : State) (x r : Reg) (h : r ≤ x) : (regBlock s x).getD r.val 0 = s.readV r := by
  have hr : r.val < x.val + 1 := Nat.lt_succ_of_le h
  simp [regBlock, State.readV, List.getD_eq_getElem?_getD, hr]

theorem getElem_loadBlock (m : Memory) (base n : Nat) (v : Vector Byte 16) (k : Nat) (hk : k < 16) :
    (loadBlock m base n v)[k] = if k < n then Memory.read m (base + k) else v[k] := by
  induction n with
  | zero => simp [loadBlock]
  | succ n ih =>
    rw [loadBlock, Vector.getElem_setIfInBounds, ih]
    by_cases h : n = k
    · subst h; simp
    · rw [if_neg h]
      by_cases h2 : k < n
      · rw [if_pos h2, if_pos (by omega)]
      · rw [if_neg h2, if_neg (by omega)]

/-! ## The range checks -/

/-- A range check passes exactly when every address of the range passes. -/
theorem checkRange_none (check : Nat → Option Stop) (base n : Nat) :
    checkRange check base n = none ↔ ∀ k, k < n → check (base + k) = none := by
  simp [checkRange]

/-- The stop a range check names is that of one of its addresses. -/
theorem checkRange_some {check : Nat → Option Stop} {base n : Nat} {stop : Stop} (h : checkRange check base n = some stop) :
    ∃ k, k < n ∧ check (base + k) = some stop := by
  obtain ⟨k, hk, h⟩ := List.exists_of_findSome?_eq_some h
  exact ⟨k, List.mem_range.1 hk, h⟩

/-- The first failing address of a range names its stop (R71). -/
theorem checkRange_first {check : Nat → Option Stop} {base n k : Nat} {stop : Stop} (hk : k < n)
    (h : check (base + k) = some stop) (hlow : ∀ j, j < k → check (base + j) = none) :
    checkRange check base n = some stop := by
  unfold checkRange
  obtain ⟨m, rfl⟩ : ∃ m, n = k + (m + 1) := ⟨n - k - 1, by omega⟩
  rw [List.range_add, List.findSome?_append, List.findSome?_eq_none_iff.2 fun j hj => hlow j (List.mem_range.1 hj),
    Option.none_or, List.range_succ_eq_map]
  simp [h]

theorem checkRead_none (a : Nat) : checkRead a = none ↔ a < memSize := by
  unfold checkRead; split <;> simp <;> omega

theorem checkWrite_none (p : Params) (a : Nat) :
    checkWrite p a = none ↔ a < memSize ∧ (reservedEnd ≤ a ∨ p.reservedStore = .store) := by
  unfold checkWrite
  cases hp : p.reservedStore <;> split <;> simp <;> omega

/-- What `unlessStop` can answer: the go-on state, or the stop of the failed check. -/
theorem unlessStop_cases (failed : Option Stop) (s go : State) :
    (failed = none ∧ unlessStop failed s go = go) ∨
    ∃ stop, failed = some stop ∧ unlessStop failed s go = raiseStop stop.reason stop.info s := by
  cases failed with
  | none => exact .inl ⟨rfl, rfl⟩
  | some stop => exact .inr ⟨stop, rfl, rfl⟩

@[simp] theorem unlessStop_none (s go : State) : unlessStop none s go = go := rfl
@[simp] theorem unlessStop_some (stop : Stop) (s go : State) :
    unlessStop (some stop) s go = raiseStop stop.reason stop.info s := rfl

end Sys2Proof.Machine
end

