-- ==== Sys2Proof/Laws/Ops.lean ====
section
/-! SUPPORT. One lemma per shared operation of the meanings and of the steps that are not cycle steps: everything it can do. -/

namespace Sys2Proof.Machine

/-! ## Arithmetic (41_alu.md) -/

theorem toNat_addResult (a b : Byte) : (addResult a b).toNat = (a.toNat + b.toNat) % 256 := by
  simp [addResult]

theorem addFlag_iff (a b : Byte) : addFlag a b = true ↔ 255 < a.toNat + b.toNat := by simp [addFlag]

theorem subFlag_iff (a b : Byte) : subFlag a b = true ↔ b.toNat ≤ a.toNat := by simp [subFlag]

theorem toNat_subResult (a b : Byte) : (subResult a b).toNat = (a.toNat + 256 - b.toNat) % 256 := by
  have ha := a.isLt
  have hb := b.isLt
  simp only [subResult, BitVec.toNat_ofInt]
  omega

theorem toNat_shrResult (a : Byte) : (shrResult a).toNat = a.toNat / 2 := by
  simp [shrResult, Nat.shiftRight_eq_div_pow]

theorem toNat_shlResult (a : Byte) : (shlResult a).toNat = a.toNat * 2 % 256 := by
  simp [shlResult, Nat.shiftLeft_eq]

theorem shrFlag_iff (a : Byte) : shrFlag a = true ↔ a.toNat % 2 = 1 := by
  simp [shrFlag, BitVec.getLsbD, Nat.testBit_zero]

theorem shlFlag_iff (a : Byte) : shlFlag a = true ↔ 128 ≤ a.toNat := by
  have ha := a.isLt
  simp only [shlFlag, BitVec.getLsbD, Nat.testBit_eq_decide_div_mod_eq, decide_eq_true_eq]
  omega

/-- The two writes of R137: VF holds the flag unless the result is written to VF last; the destination holds the result; every
other register is as before. -/
theorem readV_writeResultFlag (x q : Reg) (result : Byte) (flag : Bool) (s : State) :
    (writeResultFlag x result flag s).readV q =
      if q = VF then (if x = VF ∧ s.params.vfOrder = .resultLast then result else flagByte flag)
      else if q = x then result else s.readV q := by
  unfold writeResultFlag
  cases s.params.vfOrder
  · rw [State.readV_setV, State.readV_setV]
    simp
  · rw [State.readV_setV, State.readV_setV]
    by_cases hq : q = VF <;> by_cases hx : q = x <;> simp_all [eq_comm]

/-- The two writes of R137 touch the register file alone. -/
theorem writeResultFlag_frame (x : Reg) (result : Byte) (flag : Bool) (s : State) :
    writeResultFlag x result flag s = s.setRegs (writeResultFlag x result flag s).v := by
  unfold writeResultFlag
  cases s.params.vfOrder <;> rfl

/-! ## Skips -/

theorem skipIf_eq (taken : Bool) (s : State) : skipIf taken s = s.setPc (if taken then s.pc + 2 else s.pc) := by
  cases taken <;> rfl

theorem toNat_zext16 (nnn : Imm12) : (zext16 nnn).toNat = nnn.toNat := by
  have := nnn.isLt
  simp [zext16]
  omega

/-! ## The key latch -/

/-- The lowest key down, or none (R202). -/
theorem keyFirstDown_some {s : State} {k : Key} (h : keyFirstDown s = some k) :
    s.readKey k = true ∧ ∀ j : Key, j < k → s.readKey j = false := by
  rw [keyFirstDown, List.find?_eq_some_iff_getElem] at h
  obtain ⟨hk, n, hn, he, hlow⟩ := h
  refine ⟨hk, fun j hj => ?_⟩
  have hall : ∀ m : Fin 16, allKeys[m.val]'m.isLt = m := by decide
  have hkn : k.val = n := congrArg Fin.val (he.symm.trans (hall ⟨n, hn⟩))
  have hj' := hlow j.val (by rw [← hkn]; exact hj)
  have hj2 : (!s.readKey j) = true := (congrArg (fun q => (!s.readKey q) = true) (hall j)).mp hj'
  simpa using hj2

theorem keyFirstDown_none {s : State} : keyFirstDown s = none ↔ ∀ k : Key, s.readKey k = false := by
  have hall : ∀ k : Key, k ∈ allKeys := by decide
  simp only [keyFirstDown, List.find?_eq_none, Bool.not_eq_true]
  exact ⟨fun h k => h k (hall k), fun h k _ => h k⟩

/-! ## The timer tick (R240) -/

/-- A timer tick touches DT, ST, the audio level and the audio signals alone (R236). -/
theorem tickTimers_frame (s : State) :
    tickTimers s = { s with
      dt := (tickTimers s).dt, st := (tickTimers s).st, audioOn := (tickTimers s).audioOn,
      audioOut := (tickTimers s).audioOut } := by
  simp only [tickTimers, tickStop, tickSound, tickStart, tickDelay]
  split_ifs <;> rfl

theorem tickDelay_cases (s : State) : tickDelay s = s.setDT (if s.dt = 0 then 0 else s.dt - 1) := by
  unfold tickDelay
  split
  · next h => rw [← h]; rfl
  · rfl

/-- What a timer tick leaves, field by field (R240). -/
theorem tickTimers_eq (s : State) :
    tickTimers s = { s with
      dt := if s.dt = 0 then 0 else s.dt - 1
      st := if s.st = 0 then 0 else s.st - 1
      audioOn := !(s.st == 0 || s.st == 1)
      audioOut := s.audioOut ++ (if s.st ≠ 0 ∧ s.audioOn = false then [.start] else []) ++
        (if (s.st = 0 ∧ s.audioOn = true) ∨ s.st = 1 then [.stop] else []) } := by
  obtain ⟨⟨v, i, pc, stack, dt, st, mem, disp, key, aon, status⟩, ⟨params, draws, sched, aout⟩⟩ := s
  have hone : st ≠ 0 → st ≠ 1 → st - 1 ≠ 0 := by bv_omega
  rw [tickTimers, tickDelay_cases]
  simp only [State.setDT, tickStart, tickSound, tickStop, State.emit, State.setAudio, State.setST]
  by_cases h0 : st = 0
  · subst h0; cases aon <;> simp
  · by_cases h1 : st = 1
    · subst h1; cases aon <;> simp
    · have := hone h0 h1
      cases aon <;> simp_all

/-! ## The cycle step (R65, R100) -/

/-- A cycle step whose fetch stops. -/
theorem cycleStep_fails {s : State} (h : fetchFails s.pc = true) :
    cycleStep s = .next (raiseStop .memoryBounds s.pc.toNat s) := if_pos h

/-- A cycle step whose fetch gives a word. -/
theorem cycleStep_fetches {s : State} (h : fetchFails s.pc = false) :
    cycleStep s = exec (decodeWord (fetchWord s s.pc)) (advance s) := if_neg (by simp [h])

theorem fetchFails_iff (pc : Word) : fetchFails pc = true ↔ 0x0FFF ≤ pc.toNat := by
  simp only [fetchFails, decide_eq_true_eq, memSize]
  omega

/-! ## The registers' values at reset (R280) -/

/-- P_RESET_VALUES touches V0..VF, I, DT and ST alone, and nothing where it is `zero`. -/
theorem resetRegisters_frame (r : ResetValues) (s : State) :
    resetRegisters r s = { s with
      v := (resetRegisters r s).v, i := (resetRegisters r s).i, dt := (resetRegisters r s).dt, st := (resetRegisters r s).st } ∧
    (r = .zero → resetRegisters r s = s) := by
  cases r
  · exact ⟨rfl, fun _ => rfl⟩
  · exact ⟨rfl, nofun⟩

/-! ## The memory instructions: what the run of checked addresses says -/

/-- A read range that passes lies inside memory. -/
theorem checkRange_read_none {base n : Nat} (hn : 0 < n) (h : checkRange checkRead base n = none) : base + n ≤ memSize := by
  have := (checkRead_none _).1 ((checkRange_none _ _ _).1 h (n - 1) (by omega))
  omega

/-- A write range that passes lies inside memory. -/
theorem checkRange_write_none {p : Params} {base n : Nat} (hn : 0 < n) (h : checkRange (checkWrite p) base n = none) :
    base + n ≤ memSize := by
  have := ((checkWrite_none _ _).1 ((checkRange_none _ _ _).1 h (n - 1) (by omega))).1
  omega

end Sys2Proof.Machine
end

