-- ==== Sys2Proof/Laws/PerInstr.lean ====
section
/-! SUPPORT. A law of every instruction as syntax: the row of the opcode table that stands at the instruction's place takes its
encoded word and builds the instruction again (30_encoding.md R83, R84); no row takes the word of an unrecognized one (R87). -/

namespace Sys2Proof

/-- The place of an instruction's row in the opcode table; 37 is the catch-all's. -/
def Instr.rowIndex : Instr → Nat
  | .cls => 0
  | .ret => 1
  | .sys _ => 2
  | .jp _ => 3
  | .call _ => 4
  | .seImm _ _ => 5
  | .sneImm _ _ => 6
  | .seReg _ _ => 7
  | .seRegN _ _ _ => 8
  | .ldImm _ _ => 9
  | .addImm _ _ => 10
  | .ldReg _ _ => 11
  | .orReg _ _ => 12
  | .andReg _ _ => 13
  | .xorReg _ _ => 14
  | .addReg _ _ => 15
  | .sub _ _ => 16
  | .shr _ _ => 17
  | .subn _ _ => 18
  | .shl _ _ => 19
  | .sneReg _ _ => 20
  | .sneRegN _ _ _ => 21
  | .ldI _ => 22
  | .jpV0 _ => 23
  | .rnd _ _ => 24
  | .drw _ _ _ => 25
  | .skp _ => 26
  | .sknp _ => 27
  | .ldVxDT _ => 28
  | .ldK _ => 29
  | .ldDTVx _ => 30
  | .ldSTVx _ => 31
  | .addI _ => 32
  | .ldF _ => 33
  | .ldB _ => 34
  | .ldMemRegs _ => 35
  | .ldRegsMem _ => 36
  | .unrecognized _ => 37

namespace Laws.RowTakes

/-- The row at the instruction's place takes its word and builds it; the catch-all has no row in the list. -/
def Statement (i : Instr) : Prop :=
  i.wellFormed = true →
    match opcodeRows[i.rowIndex]? with
    | some r => r.takes (encodeWord i) = true ∧ r.build (encodeWord i) = i
    | none => ∀ r ∈ opcodeRows, r.takes (encodeWord i) = false

theorem cls : Statement (.cls) := by
  intro _; exact ⟨by decide, rfl⟩

theorem ret : Statement (.ret) := by
  intro _; exact ⟨by decide, rfl⟩

theorem sys (nnn : Imm12) : Statement (.sys nnn) := by
  intro _
  refine ⟨(takes_F000 ..).trans (decide_eq_true ?_), by simp only [encodeWord, nnnField_wordNNN]⟩
  have := nnn.isLt
  simp only [encodeWord, toNat_wordNNN, BitVec.toNat_ofNat, BitVec.ofNat_eq_ofNat]
  omega

theorem jp (nnn : Imm12) : Statement (.jp nnn) := by
  intro _
  refine ⟨(takes_F000 ..).trans (decide_eq_true ?_), by simp only [encodeWord, nnnField_wordNNN]⟩
  have := nnn.isLt
  simp only [encodeWord, toNat_wordNNN, BitVec.toNat_ofNat, BitVec.ofNat_eq_ofNat]
  omega

theorem call (nnn : Imm12) : Statement (.call nnn) := by
  intro _
  refine ⟨(takes_F000 ..).trans (decide_eq_true ?_), by simp only [encodeWord, nnnField_wordNNN]⟩
  have := nnn.isLt
  simp only [encodeWord, toNat_wordNNN, BitVec.toNat_ofNat, BitVec.ofNat_eq_ofNat]
  omega

theorem seImm (x : Reg) (nn : Byte) : Statement (.seImm x nn) := by
  intro _
  refine ⟨(takes_F000 ..).trans (decide_eq_true ?_), by simp only [encodeWord, xField_wordXNN, nnField_wordXNN]⟩
  have := nn.isLt
  simp only [encodeWord, toNat_wordXNN, BitVec.toNat_ofNat, BitVec.ofNat_eq_ofNat]
  omega

theorem sneImm (x : Reg) (nn : Byte) : Statement (.sneImm x nn) := by
  intro _
  refine ⟨(takes_F000 ..).trans (decide_eq_true ?_), by simp only [encodeWord, xField_wordXNN, nnField_wordXNN]⟩
  have := nn.isLt
  simp only [encodeWord, toNat_wordXNN, BitVec.toNat_ofNat, BitVec.ofNat_eq_ofNat]
  omega

theorem seReg (x : Reg) (y : Reg) : Statement (.seReg x y) := by
  intro _
  refine ⟨(takes_F00F ..).trans (decide_eq_true ?_), by simp only [encodeWord, xField_wordXYN, yField_wordXYN]⟩
  simp only [encodeWord, toNat_wordXYN, BitVec.toNat_ofNat, BitVec.ofNat_eq_ofNat]
  omega

theorem seRegN (x : Reg) (y : Reg) (n : Nibble) : Statement (.seRegN x y n) := by
  intro _
  refine ⟨(takes_F000 ..).trans (decide_eq_true ?_), by simp only [encodeWord, xField_wordXYN, yField_wordXYN, nField_wordXYN]⟩
  have := n.isLt
  simp only [encodeWord, toNat_wordXYN, BitVec.toNat_ofNat, BitVec.ofNat_eq_ofNat]
  omega

theorem ldImm (x : Reg) (nn : Byte) : Statement (.ldImm x nn) := by
  intro _
  refine ⟨(takes_F000 ..).trans (decide_eq_true ?_), by simp only [encodeWord, xField_wordXNN, nnField_wordXNN]⟩
  have := nn.isLt
  simp only [encodeWord, toNat_wordXNN, BitVec.toNat_ofNat, BitVec.ofNat_eq_ofNat]
  omega

theorem addImm (x : Reg) (nn : Byte) : Statement (.addImm x nn) := by
  intro _
  refine ⟨(takes_F000 ..).trans (decide_eq_true ?_), by simp only [encodeWord, xField_wordXNN, nnField_wordXNN]⟩
  have := nn.isLt
  simp only [encodeWord, toNat_wordXNN, BitVec.toNat_ofNat, BitVec.ofNat_eq_ofNat]
  omega

theorem ldReg (x : Reg) (y : Reg) : Statement (.ldReg x y) := by
  intro _
  refine ⟨(takes_F00F ..).trans (decide_eq_true ?_), by simp only [encodeWord, xField_wordXYN, yField_wordXYN]⟩
  simp only [encodeWord, toNat_wordXYN, BitVec.toNat_ofNat, BitVec.ofNat_eq_ofNat]
  omega

theorem orReg (x : Reg) (y : Reg) : Statement (.orReg x y) := by
  intro _
  refine ⟨(takes_F00F ..).trans (decide_eq_true ?_), by simp only [encodeWord, xField_wordXYN, yField_wordXYN]⟩
  simp only [encodeWord, toNat_wordXYN, BitVec.toNat_ofNat, BitVec.ofNat_eq_ofNat]
  omega

theorem andReg (x : Reg) (y : Reg) : Statement (.andReg x y) := by
  intro _
  refine ⟨(takes_F00F ..).trans (decide_eq_true ?_), by simp only [encodeWord, xField_wordXYN, yField_wordXYN]⟩
  simp only [encodeWord, toNat_wordXYN, BitVec.toNat_ofNat, BitVec.ofNat_eq_ofNat]
  omega

theorem xorReg (x : Reg) (y : Reg) : Statement (.xorReg x y) := by
  intro _
  refine ⟨(takes_F00F ..).trans (decide_eq_true ?_), by simp only [encodeWord, xField_wordXYN, yField_wordXYN]⟩
  simp only [encodeWord, toNat_wordXYN, BitVec.toNat_ofNat, BitVec.ofNat_eq_ofNat]
  omega

theorem addReg (x : Reg) (y : Reg) : Statement (.addReg x y) := by
  intro _
  refine ⟨(takes_F00F ..).trans (decide_eq_true ?_), by simp only [encodeWord, xField_wordXYN, yField_wordXYN]⟩
  simp only [encodeWord, toNat_wordXYN, BitVec.toNat_ofNat, BitVec.ofNat_eq_ofNat]
  omega

theorem sub (x : Reg) (y : Reg) : Statement (.sub x y) := by
  intro _
  refine ⟨(takes_F00F ..).trans (decide_eq_true ?_), by simp only [encodeWord, xField_wordXYN, yField_wordXYN]⟩
  simp only [encodeWord, toNat_wordXYN, BitVec.toNat_ofNat, BitVec.ofNat_eq_ofNat]
  omega

theorem shr (x : Reg) (y : Reg) : Statement (.shr x y) := by
  intro _
  refine ⟨(takes_F00F ..).trans (decide_eq_true ?_), by simp only [encodeWord, xField_wordXYN, yField_wordXYN]⟩
  simp only [encodeWord, toNat_wordXYN, BitVec.toNat_ofNat, BitVec.ofNat_eq_ofNat]
  omega

theorem subn (x : Reg) (y : Reg) : Statement (.subn x y) := by
  intro _
  refine ⟨(takes_F00F ..).trans (decide_eq_true ?_), by simp only [encodeWord, xField_wordXYN, yField_wordXYN]⟩
  simp only [encodeWord, toNat_wordXYN, BitVec.toNat_ofNat, BitVec.ofNat_eq_ofNat]
  omega

theorem shl (x : Reg) (y : Reg) : Statement (.shl x y) := by
  intro _
  refine ⟨(takes_F00F ..).trans (decide_eq_true ?_), by simp only [encodeWord, xField_wordXYN, yField_wordXYN]⟩
  simp only [encodeWord, toNat_wordXYN, BitVec.toNat_ofNat, BitVec.ofNat_eq_ofNat]
  omega

theorem sneReg (x : Reg) (y : Reg) : Statement (.sneReg x y) := by
  intro _
  refine ⟨(takes_F00F ..).trans (decide_eq_true ?_), by simp only [encodeWord, xField_wordXYN, yField_wordXYN]⟩
  simp only [encodeWord, toNat_wordXYN, BitVec.toNat_ofNat, BitVec.ofNat_eq_ofNat]
  omega

theorem sneRegN (x : Reg) (y : Reg) (n : Nibble) : Statement (.sneRegN x y n) := by
  intro _
  refine ⟨(takes_F000 ..).trans (decide_eq_true ?_), by simp only [encodeWord, xField_wordXYN, yField_wordXYN, nField_wordXYN]⟩
  have := n.isLt
  simp only [encodeWord, toNat_wordXYN, BitVec.toNat_ofNat, BitVec.ofNat_eq_ofNat]
  omega

theorem ldI (nnn : Imm12) : Statement (.ldI nnn) := by
  intro _
  refine ⟨(takes_F000 ..).trans (decide_eq_true ?_), by simp only [encodeWord, nnnField_wordNNN]⟩
  have := nnn.isLt
  simp only [encodeWord, toNat_wordNNN, BitVec.toNat_ofNat, BitVec.ofNat_eq_ofNat]
  omega

theorem jpV0 (nnn : Imm12) : Statement (.jpV0 nnn) := by
  intro _
  refine ⟨(takes_F000 ..).trans (decide_eq_true ?_), by simp only [encodeWord, nnnField_wordNNN]⟩
  have := nnn.isLt
  simp only [encodeWord, toNat_wordNNN, BitVec.toNat_ofNat, BitVec.ofNat_eq_ofNat]
  omega

theorem rnd (x : Reg) (nn : Byte) : Statement (.rnd x nn) := by
  intro _
  refine ⟨(takes_F000 ..).trans (decide_eq_true ?_), by simp only [encodeWord, xField_wordXNN, nnField_wordXNN]⟩
  have := nn.isLt
  simp only [encodeWord, toNat_wordXNN, BitVec.toNat_ofNat, BitVec.ofNat_eq_ofNat]
  omega

theorem drw (x : Reg) (y : Reg) (n : Nibble) : Statement (.drw x y n) := by
  intro _
  refine ⟨(takes_F000 ..).trans (decide_eq_true ?_), by simp only [encodeWord, xField_wordXYN, yField_wordXYN, nField_wordXYN]⟩
  have := n.isLt
  simp only [encodeWord, toNat_wordXYN, BitVec.toNat_ofNat, BitVec.ofNat_eq_ofNat]
  omega

theorem skp (x : Reg) : Statement (.skp x) := by
  intro _
  refine ⟨(takes_F0FF ..).trans (decide_eq_true ?_), by simp only [encodeWord, xField_wordXNN]⟩
  simp only [encodeWord, toNat_wordXNN, BitVec.toNat_ofNat, BitVec.ofNat_eq_ofNat]
  omega

theorem sknp (x : Reg) : Statement (.sknp x) := by
  intro _
  refine ⟨(takes_F0FF ..).trans (decide_eq_true ?_), by simp only [encodeWord, xField_wordXNN]⟩
  simp only [encodeWord, toNat_wordXNN, BitVec.toNat_ofNat, BitVec.ofNat_eq_ofNat]
  omega

theorem ldVxDT (x : Reg) : Statement (.ldVxDT x) := by
  intro _
  refine ⟨(takes_F0FF ..).trans (decide_eq_true ?_), by simp only [encodeWord, xField_wordXNN]⟩
  simp only [encodeWord, toNat_wordXNN, BitVec.toNat_ofNat, BitVec.ofNat_eq_ofNat]
  omega

theorem ldK (x : Reg) : Statement (.ldK x) := by
  intro _
  refine ⟨(takes_F0FF ..).trans (decide_eq_true ?_), by simp only [encodeWord, xField_wordXNN]⟩
  simp only [encodeWord, toNat_wordXNN, BitVec.toNat_ofNat, BitVec.ofNat_eq_ofNat]
  omega

theorem ldDTVx (x : Reg) : Statement (.ldDTVx x) := by
  intro _
  refine ⟨(takes_F0FF ..).trans (decide_eq_true ?_), by simp only [encodeWord, xField_wordXNN]⟩
  simp only [encodeWord, toNat_wordXNN, BitVec.toNat_ofNat, BitVec.ofNat_eq_ofNat]
  omega

theorem ldSTVx (x : Reg) : Statement (.ldSTVx x) := by
  intro _
  refine ⟨(takes_F0FF ..).trans (decide_eq_true ?_), by simp only [encodeWord, xField_wordXNN]⟩
  simp only [encodeWord, toNat_wordXNN, BitVec.toNat_ofNat, BitVec.ofNat_eq_ofNat]
  omega

theorem addI (x : Reg) : Statement (.addI x) := by
  intro _
  refine ⟨(takes_F0FF ..).trans (decide_eq_true ?_), by simp only [encodeWord, xField_wordXNN]⟩
  simp only [encodeWord, toNat_wordXNN, BitVec.toNat_ofNat, BitVec.ofNat_eq_ofNat]
  omega

theorem ldF (x : Reg) : Statement (.ldF x) := by
  intro _
  refine ⟨(takes_F0FF ..).trans (decide_eq_true ?_), by simp only [encodeWord, xField_wordXNN]⟩
  simp only [encodeWord, toNat_wordXNN, BitVec.toNat_ofNat, BitVec.ofNat_eq_ofNat]
  omega

theorem ldB (x : Reg) : Statement (.ldB x) := by
  intro _
  refine ⟨(takes_F0FF ..).trans (decide_eq_true ?_), by simp only [encodeWord, xField_wordXNN]⟩
  simp only [encodeWord, toNat_wordXNN, BitVec.toNat_ofNat, BitVec.ofNat_eq_ofNat]
  omega

theorem ldMemRegs (x : Reg) : Statement (.ldMemRegs x) := by
  intro _
  refine ⟨(takes_F0FF ..).trans (decide_eq_true ?_), by simp only [encodeWord, xField_wordXNN]⟩
  simp only [encodeWord, toNat_wordXNN, BitVec.toNat_ofNat, BitVec.ofNat_eq_ofNat]
  omega

theorem ldRegsMem (x : Reg) : Statement (.ldRegsMem x) := by
  intro _
  refine ⟨(takes_F0FF ..).trans (decide_eq_true ?_), by simp only [encodeWord, xField_wordXNN]⟩
  simp only [encodeWord, toNat_wordXNN, BitVec.toNat_ofNat, BitVec.ofNat_eq_ofNat]
  omega

theorem unrecognized (w : Word) : Statement (.unrecognized w) := by
  exact fun h => (no_row_takes_iff w).2 h

end Laws.RowTakes

end Sys2Proof
end

