-- ==== Sys2Proof/Tests/Slice0.lean ====
section
/-! SUPPORT. The model's own tests: ill-formed terms, a word of every row, one-step vectors (their ids are those of
95_test_vectors.md), and, for every statement with hypotheses, a witness that meets them. Words and results are the spec's. -/

namespace Sys2Proof.Machine

/-! ## Ill-formed terms, one for each check of WellFormed -/

theorem test_wf_sys_cls : (Instr.sys 0x0E0).wellFormed = false := by decide
theorem test_wf_sys_ret : (Instr.sys 0x0EE).wellFormed = false := by decide
theorem test_wf_se_low_nibble : (Instr.seRegN 1 2 0).wellFormed = false := by decide
theorem test_wf_sne_low_nibble : (Instr.sneRegN 1 2 0).wellFormed = false := by decide
theorem test_wf_unrecognized_kind8 : (Instr.unrecognized 0x8120).wellFormed = false := by decide
theorem test_wf_unrecognized_kindE : (Instr.unrecognized 0xE19E).wellFormed = false := by decide
theorem test_wf_unrecognized_kindF : (Instr.unrecognized 0xF107).wellFormed = false := by decide
theorem test_wf_unrecognized_other_kind : (Instr.unrecognized 0x1234).wellFormed = false := by decide

/-! ## Decoding: one word of every row, written out from the fields of R81 and the patterns of R84 -/

theorem test_decode_control :
    decodeWord 0b0000000011100000 = .cls ∧ decodeWord 0b0000000011101110 = .ret ∧
    decodeWord 0b0000000100100011 = .sys 0x123 ∧ decodeWord 0b0001101010111100 = .jp 0xABC ∧
    decodeWord 0b0010001100000001 = .call 0x301 ∧ decodeWord 0b1011011001010100 = .jpV0 0x654 := by decide

theorem test_decode_skips :
    decodeWord 0b0011001101000010 = .seImm 3 0x42 ∧ decodeWord 0b0100001101000010 = .sneImm 3 0x42 ∧
    decodeWord 0b0101000100100000 = .seReg 1 2 ∧ decodeWord 0b0101000100100001 = .seRegN 1 2 1 ∧
    decodeWord 0b1001000100100000 = .sneReg 1 2 ∧ decodeWord 0b1001000100101111 = .sneRegN 1 2 15 := by decide

theorem test_decode_immediates :
    decodeWord 0b0110101000000101 = .ldImm 10 0x05 ∧ decodeWord 0b0111101000000011 = .addImm 10 0x03 ∧
    decodeWord 0b1100000100001111 = .rnd 1 0x0F := by decide

theorem test_decode_registers :
    decodeWord 0b1000000100100000 = .ldReg 1 2 ∧ decodeWord 0b1000000100100001 = .orReg 1 2 ∧
    decodeWord 0b1000000100100010 = .andReg 1 2 ∧ decodeWord 0b1000000100100011 = .xorReg 1 2 ∧
    decodeWord 0b1000000100100100 = .addReg 1 2 ∧ decodeWord 0b1000000100100101 = .sub 1 2 ∧
    decodeWord 0b1000000100100110 = .shr 1 2 ∧ decodeWord 0b1000000100100111 = .subn 1 2 ∧
    decodeWord 0b1000000100101110 = .shl 1 2 := by decide

theorem test_decode_index_memory :
    decodeWord 0b1010000001010000 = .ldI 0x050 ∧ decodeWord 0b1111001000011110 = .addI 2 ∧
    decodeWord 0b1111000000101001 = .ldF 0 ∧ decodeWord 0b1111101000110011 = .ldB 10 ∧
    decodeWord 0b1111001001010101 = .ldMemRegs 2 ∧ decodeWord 0b1111001001100101 = .ldRegsMem 2 := by decide

theorem test_decode_display_input_timers :
    decodeWord 0b1101000100100101 = .drw 1 2 5 ∧ decodeWord 0b1110000110011110 = .skp 1 ∧
    decodeWord 0b1110000110100001 = .sknp 1 ∧ decodeWord 0b1111001100000111 = .ldVxDT 3 ∧
    decodeWord 0b1111001100001010 = .ldK 3 ∧ decodeWord 0b1111001100010101 = .ldDTVx 3 ∧
    decodeWord 0b1111001100011000 = .ldSTVx 3 := by decide

/-- R87: a word of each unrecognized group. -/
theorem test_decode_unrecognized :
    decodeWord 0x8AB8 = .unrecognized 0x8AB8 ∧ decodeWord 0xE0FF = .unrecognized 0xE0FF ∧
    decodeWord 0xF0FF = .unrecognized 0xF0FF := by decide

/-- F-1, R67: the byte at the lower address is the high one. -/
theorem test_decode_big_endian : decode [0x6A, 0x05, 0x77] = .ok (.ldImm 10 5, [0x77]) := by rfl
theorem test_decode_truncated : decode [0x6A] = .error .truncated := by rfl
theorem test_decode_table_word : decodeTableWord 16 0xD015 = some (.drw 0 1 5) := by decide
theorem test_encode : encode (.drw 0 1 5) = [0xD0, 0x15] := by decide

/-! ## One step -/

/-- The next state, where there is one. -/
def nextOf (r : Result) : State :=
  match r with
  | .next t => t
  | .fault _ => State.reset
  | .refused _ => State.reset

/-- The state after the cycle step that runs the word `w` placed at PC. -/
def run1 (w : Nat) (s : State) : State := nextOf (step (s.withFetchWord 16 w))

/-- The reset state with I and the first three registers given. -/
def start (i : Word) (v0 v1 v2 : Byte) : State := (((State.reset.setI i).setV 0 v0).setV 1 v1).setV 2 v2

/-- A state with its parameters changed. -/
def under (f : Params → Params) (s : State) : State := { s with params := f s.params }

/-- F-3 -/
theorem test_fetch_out_of_range :
    (nextOf (step (State.reset.setPc 0x0FFF))).status = .stopped ⟨.memoryBounds, 0x0FFF⟩ ∧
    (nextOf (step (State.reset.setPc 0x0FFF))).pc = 0x0FFF := by decide
/-- F-5: an odd PC fetches as any other (R68). -/
theorem test_fetch_odd :
    (run1 0x6107 (State.reset.setPc 0x201)).readV 1 = 7 ∧ (run1 0x6107 (State.reset.setPc 0x201)).pc = 0x203 := by decide
/-- F-9 -/
theorem test_sys : run1 0x0000 State.reset = State.reset.setPc 0x202 := by decide
/-- F-6 -/
theorem test_unrecognized : run1 0x8AB8 State.reset = (State.reset.withFetchWord 16 0x8AB8).setPc 0x202 := by decide
/-- C-1 -/
theorem test_jp : (run1 0x1ABC State.reset).pc = 0xABC := by decide
/-- C-4 -/
theorem test_call : (run1 0x2300 State.reset).pc = 0x300 ∧ (run1 0x2300 State.reset).stack = [0x202] := by decide
/-- C-6 -/
theorem test_call_overflow :
    (run1 0x2300 (State.reset.setStack (List.replicate 16 0))).status = .stopped ⟨.stackOverflow, 0x200⟩ := by decide
/-- C-9 -/
theorem test_ret :
    (run1 0x00EE (State.reset.setStack [0x202, 0x402])).pc = 0x402 ∧
    (run1 0x00EE (State.reset.setStack [0x202, 0x402])).stack = [0x202] := by decide
/-- C-8 -/
theorem test_ret_underflow : (run1 0x00EE State.reset).status = .stopped ⟨.stackUnderflow, 0x200⟩ := by decide
/-- C-11: the sum is not masked to 12 bits. -/
theorem test_jp_v0 : (run1 0xBFFF (start 0 0xFF 0 0)).pc = 0x10FE := by decide
/-- S-1 -/
theorem test_se_imm : (run1 0x3142 (start 0 0 0x42 0)).pc = 0x204 := by decide
/-- S-4 -/
theorem test_sne_imm : (run1 0x4142 (start 0 0 0x42 0)).pc = 0x202 := by decide
/-- S-6 -/
theorem test_se_reg : (run1 0x5120 (start 0 0 7 8)).pc = 0x202 := by decide
/-- S-8 -/
theorem test_sne_reg : (run1 0x9120 (start 0 0 7 8)).pc = 0x204 := by decide
/-- S-10, S-11, S-12 -/
theorem test_se_reg_n :
    (run1 0x5121 (start 0 0 7 7)).pc = 0x202 ∧
    (run1 0x5121 (under (fun p => { p with skipLowNibble := .ignore }) (start 0 0 7 7))).pc = 0x204 ∧
    (run1 0x5121 (under (fun p => { p with skipLowNibble := .fault }) (start 0 0 7 7))).status =
      .stopped ⟨.illegalEncoding, 0x200⟩ := by decide
/-- S-13, S-14 -/
theorem test_sne_reg_n :
    (run1 0x9123 (start 0 0 7 8)).pc = 0x202 ∧
    (run1 0x9123 (under (fun p => { p with skipLowNibble := .ignore }) (start 0 0 7 8))).pc = 0x204 := by decide
/-- A-1 -/
theorem test_ld_imm : (run1 0x6A05 State.reset).readV 10 = 5 := by decide
/-- A-3: the add wraps and leaves VF. -/
theorem test_add_imm_wraps :
    (run1 0x7001 ((start 0 0xFF 0 0).setV VF 0x55)).readV 0 = 0 ∧
    (run1 0x7001 ((start 0 0xFF 0 0).setV VF 0x55)).readV VF = 0x55 := by decide
/-- A-6 -/
theorem test_ld_reg : (run1 0x8120 (start 0 0 0 0x33)).readV 1 = 0x33 := by decide
/-- A-7: VF is not reset. -/
theorem test_or :
    (run1 0x8121 ((start 0 0 0x0C 0x0A).setV VF 0x77)).readV 1 = 0x0E ∧
    (run1 0x8121 ((start 0 0 0x0C 0x0A).setV VF 0x77)).readV VF = 0x77 := by decide
/-- A-8 -/
theorem test_and : (run1 0x8122 (start 0 0 0x0C 0x0A)).readV 1 = 0x08 := by decide
/-- A-9 -/
theorem test_xor : (run1 0x8123 (start 0 0 0x0C 0x0A)).readV 1 = 0x06 := by decide
/-- A-11 -/
theorem test_add_reg : (run1 0x8004 (start 0 0x81 0 0)).readV 0 = 2 ∧ (run1 0x8004 (start 0 0x81 0 0)).readV VF = 1 := by decide
/-- A-12, A-13: the order of the two writes when the destination is VF. -/
theorem test_add_reg_vf_order :
    (run1 0x8F14 ((start 0 0 1 0).setV VF 0xFF)).readV VF = 1 ∧
    (run1 0x8F14 (under (fun p => { p with vfOrder := .resultLast }) ((start 0 0 1 0).setV VF 0xFF))).readV VF = 0 := by decide
/-- R139 example -/
theorem test_sub : (run1 0x8015 (start 0 5 3 0)).readV 0 = 2 ∧ (run1 0x8015 (start 0 5 3 0)).readV VF = 1 := by decide
/-- R139: equal operands do not borrow, a smaller one does. -/
theorem test_sub_borrow : (run1 0x8015 (start 0 3 3 0)).readV VF = 1 ∧ (run1 0x8015 (start 0 0 1 0)).readV 0 = 0xFF := by decide
/-- A-25: Vy is not read. -/
theorem test_shr : (run1 0x8016 (start 0 4 0xFF 0)).readV 0 = 2 ∧ (run1 0x8016 (start 0 4 0xFF 0)).readV VF = 0 := by decide
/-- A-23 -/
theorem test_subn : (run1 0x8017 (start 0 5 3 0)).readV 0 = 0xFE ∧ (run1 0x8017 (start 0 5 3 0)).readV VF = 0 := by decide
/-- R142 example -/
theorem test_shl : (run1 0x801E (start 0 0x81 0xFF 0)).readV 0 = 2 ∧ (run1 0x801E (start 0 0x81 0xFF 0)).readV VF = 1 := by decide
/-- A-27: a zero mask gives 0, whatever the draw. -/
theorem test_rnd_zero_mask : (run1 0xC100 (start 0 0 9 0)).readV 1 = 0 := by
  show Config.randomByte 0 &&& 0 = 0
  exact BitVec.and_zero
/-- M-2 -/
theorem test_ld_i : (run1 0xAFFF State.reset).i = 0x0FFF := by decide
/-- M-4, M-5 -/
theorem test_add_i :
    (run1 0xF21E (start 0xFFFF 0 0 2)).i = 1 ∧
    (run1 0xF21E (under (fun p => { p with iOverflow := .fault }) (start 0xFFFF 0 0 2))).status =
      .stopped ⟨.indexOverflow, 0x200⟩ := by decide
/-- M-7: no mask. -/
theorem test_ld_f : (run1 0xF029 (start 0 0x10 0 0)).i = 0x0A0 := by decide
/-- L1-6 -/
theorem test_ld_b : Memory.readList (run1 0xF033 (start 0x300 157 0 0)).mem 0x300 3 = [1, 5, 7] := by decide
/-- M-13, M-15 -/
theorem test_ld_b_stops :
    (run1 0xF033 (start 0xFFE 1 0 0)).status = .stopped ⟨.memoryBounds, 0x1000⟩ ∧
    (run1 0xF033 (under (fun p => { p with reservedStore := .fault }) (start 0x1FF 157 0 0))).status =
      .stopped ⟨.reservedWrite, 0x1FF⟩ := by decide
/-- M-17 -/
theorem test_ld_mem_regs :
    Memory.readList (run1 0xF255 (start 0x300 1 2 3)).mem 0x300 4 = [1, 2, 3, 0] ∧
    (run1 0xF255 (start 0x300 1 2 3)).i = 0x300 := by decide
/-- M-19 -/
theorem test_ld_mem_regs_stops : (run1 0xFF55 (start 0xFF1 1 2 3)).status = .stopped ⟨.memoryBounds, 0x1000⟩ := by decide
/-- M-22 -/
theorem test_ld_regs_mem : (run1 0xF065 (start 0x050 0 0 0)).readV 0 = 0xF0 := by decide
/-- M-24 -/
theorem test_ld_regs_mem_stops :
    (run1 0xF165 (start 0xFFF 9 8 0)).status = .stopped ⟨.memoryBounds, 0x1000⟩ ∧ (run1 0xF165 (start 0xFFF 9 8 0)).readV 0 = 9 := by
  decide
/-- D-6: columns past the right edge are dropped. -/
theorem test_drw_clips :
    (run1 0xD011 ((start 0x300 60 0 0).setMem [(0x300, 0xFF)])).disp.pixel 63 0 = true ∧
    (run1 0xD011 ((start 0x300 60 0 0).setMem [(0x300, 0xFF)])).disp.pixel 0 0 = false ∧
    (run1 0xD011 ((start 0x300 60 0 0).setMem [(0x300, 0xFF)])).disp.pixel 0 1 = false := by decide
/-- D-4: a set pixel is erased. -/
theorem test_drw_collision :
    (run1 0xD011 ((start 0x050 0 0 0).setDisp (State.reset.disp.flip 0 0))).disp.pixel 0 0 = false ∧
    (run1 0xD011 ((start 0x050 0 0 0).setDisp (State.reset.disp.flip 0 0))).readV VF = 1 := by decide
/-- D-1 -/
theorem test_cls : (run1 0x00E0 (State.reset.setDisp (State.reset.disp.flip 5 5))).disp.pixel 5 5 = false := by decide
/-- K-1, K-5 -/
theorem test_skp :
    (run1 0xE19E ((start 0 0 5 0).setKey 5 true)).pc = 0x204 ∧
    (run1 0xE19E ((start 0 0 0x15 0).setKey 5 true)).status = .stopped ⟨.keyIndex, 0x200⟩ := by decide
/-- K-3, and K-6 with SKNP -/
theorem test_sknp :
    (run1 0xE1A1 (start 0 0 5 0)).pc = 0x204 ∧
    (run1 0xE1A1 (under (fun p => { p with keyIndex := .mask }) ((start 0 0 0x15 0).setKey 5 true))).pc = 0x202 := by decide
/-- K-8 -/
theorem test_ld_k_waits : (run1 0xF30A State.reset).pc = 0x200 := by decide
/-- K-10: the lowest key is taken, the other stays down. -/
theorem test_ld_k :
    (run1 0xF00A ((State.reset.setKey 9 true).setKey 3 true)).readV 0 = 3 ∧
    (run1 0xF00A ((State.reset.setKey 9 true).setKey 3 true)).key = State.reset.key.set 9 true := by decide
/-- T-1, T-2, T-3 -/
theorem test_timer_moves :
    (run1 0xF307 (State.reset.setDT 0x3C)).readV 3 = 0x3C ∧ (run1 0xF115 (start 0 0 0x3C 0)).dt = 0x3C ∧
    (run1 0xF118 (start 0 0 2 0)).st = 2 ∧ (run1 0xF118 (start 0 0 2 0)).audioOn = false := by decide
/-- T-7: start and stop in one tick. -/
theorem test_timer_tick : (tickTimers (State.reset.setST 1)).audioOut = [.start, .stop] := by decide
/-- T-8 -/
theorem test_timer_tick_counts :
    (tickTimers (((State.reset.setDT 5).setST 3).setAudio true)).dt = 4 ∧
    (tickTimers (((State.reset.setDT 5).setST 3).setAudio true)).audioOut = [] := by decide

/-- R280, R33: under P_RESET_VALUES = unwritten PC and the status still have their reset values. -/
theorem test_boot_unwritten :
    ((boot { defaultParams with resetValues := .unwritten } defaultFont []).toOption.map fun s => (s.pc, s.status)) =
      some (0x200, .running) := by rfl

/-- The state after that load. -/
def bootUnwritten : State := resetRegisters .unwritten (under (fun p => { p with resetValues := .unwritten }) State.reset)

/-- R130: LD V0, nn gives its register the value nn there too. -/
theorem test_unwritten_write : (run1 0x6001 bootUnwritten).readV 0 = 1 := by rfl
/-- R138: ADD V0, V1 runs there: it adds the values, whatever they are. -/
theorem test_unwritten_read :
    (run1 0x8014 bootUnwritten).readV 0 = BitVec.ofNat 8 ((bootUnwritten.readV 0).toNat + (bootUnwritten.readV 1).toNat) := by rfl

/-- R231: the codes. -/
theorem test_stop_codes :
    [StopReason.stackUnderflow, .stackOverflow, .memoryBounds, .keyIndex, .illegalEncoding, .reservedWrite, .indexOverflow].map
      StopReason.code = [1, 2, 3, 4, 5, 6, 7] := by decide

/-! ## Witnesses: states and operands that meet the hypotheses of each statement, clause by clause, at boundary values -/

/-- `s` with one transaction coming. -/
def coming (e : Event) (s : State) : State := s.setSched [e]
/-- a stopped state -/
def halted : State := State.reset.setStatus (.stopped ⟨.stackUnderflow, 0x200⟩)

theorem witness_DecodeOfEncode :
    (Instr.sys 0x0EF).wellFormed = true ∧ (Instr.seRegN 15 15 1).wellFormed = true ∧
    (Instr.unrecognized 0x8FFF).wellFormed = true ∧ (Instr.unrecognized 0xE09F).wellFormed = true ∧
    (Instr.unrecognized 0xF066).wellFormed = true := by decide

theorem witness_OnlyTheNamedRowsOverlap :
    (opcodeRows[0]?.map fun p => p.takes 0x00E0) = some true ∧ (opcodeRows[2]?.map fun q => q.takes 0x00E0) = some true := by decide

theorem witness_ResetMemoryHoldsTheFont :
    (15 : Nat) < 16 ∧ (4 : Nat) < 5 ∧ (0x04F : Nat) < 0x050 ∧ (0x0A0 : Nat) ≤ 0x0A0 := by decide

theorem witness_Boot_too_large : 3584 < (List.replicate 3585 (0 : Byte)).length := by rw [List.length_replicate]; decide
theorem witness_Boot_zero : defaultParams.resetValues = .zero := rfl
theorem witness_Boot_fits : (List.replicate 3584 (0 : Byte)).length ≤ 3584 := by rw [List.length_replicate]

theorem witness_StepRuns :
    (State.reset.setPc 0x0FFE).status = .running ∧ nextEvent (State.reset.setPc 0x0FFE) = .cycle ∧
    (State.reset.setPc 0x0FFE).pc.toNat + 1 < 4096 ∧
    decode [(State.reset.setPc 0x0FFE).readMem 0x0FFE, (State.reset.setPc 0x0FFE).readMem 0x0FFF] = .ok (.sys 0, []) :=
  ⟨by decide, by decide, by decide, rfl⟩

theorem witness_FetchOutOfRange :
    (State.reset.setPc 0x0FFF).status = .running ∧ nextEvent (State.reset.setPc 0x0FFF) = .cycle ∧
    0x0FFF ≤ (State.reset.setPc 0x0FFF).pc.toNat := by decide

theorem witness_HostKey : (coming (.key 7 true) State.reset).status = .running ∧
    (coming (.key 7 true) State.reset).sched = [.key 7 true] := by decide

theorem witness_Snapshot : (coming .snapshot State.reset).sched = [.snapshot] ∧ (coming .snapshot halted).sched = [.snapshot] := by
  decide

theorem witness_TimerTick : (coming .timerTick (State.reset.setST 1)).status = .running ∧
    (coming .timerTick (State.reset.setST 1)).sched = [.timerTick] := by decide

theorem witness_StoppedTakesNoStep :
    halted.status = .stopped ⟨.stackUnderflow, 0x200⟩ ∧ nextEvent halted ≠ .snapshot ∧
    nextEvent (coming .timerTick halted) ≠ .snapshot ∧ nextEvent (coming (.key 0 true) halted) ≠ .snapshot := by decide

theorem witness_NoRunLeavesStopped :
    (coming .snapshot halted).status = .stopped ⟨.stackUnderflow, 0x200⟩ ∧ ReachesIn 1 (coming .snapshot halted) halted :=
  ⟨by decide, rfl⟩

/-- a running engine: after reset, and with registers that hold free values -/
theorem witness_EveryInstruction : State.reset.status = .running ∧ bootUnwritten.status = .running := ⟨rfl, rfl⟩

/-- every statement with the one hypothesis that `exec` answers a next state -/
theorem witness_exec_answers : exec .cls State.reset = .next (nextOf (exec .cls State.reset)) := rfl

theorem witness_RetPopsOrUnderflows : State.reset.stack = [] ∧ (State.reset.setStack [1, 2]).stack = [1] ++ [2] := by decide

theorem witness_CallPushesOrOverflows :
    (State.reset.setStack (List.replicate 15 0)).stack.length < 16 ∧
    (State.reset.setStack (List.replicate 16 0)).stack.length = 16 := by decide

theorem witness_LowNibbleSkips :
    State.reset.params.skipLowNibble = .noop ∧
    (under (fun p => { p with skipLowNibble := .ignore }) State.reset).params.skipLowNibble = .ignore ∧
    (under (fun p => { p with skipLowNibble := .fault }) State.reset).params.skipLowNibble = .fault := by decide

/-- the flag writers: a destination other than VF under either order, VF under the default order; VF under the other order -/
theorem witness_flag_writers :
    (0 : Reg) ≠ VF ∧ State.reset.params.vfOrder = .flagLast ∧
    (under (fun p => { p with vfOrder := .resultLast }) State.reset).params.vfOrder = .resultLast := by decide

theorem witness_AddI :
    (start 0xFFFF 0 0 0).i.toNat + ((start 0xFFFF 0 0 0).readV 1).toNat < 65536 ∧
    (start 0xFFFF 0 1 0).params.iOverflow = .wrap ∧
    65536 ≤ (start 0xFFFF 0 1 0).i.toNat + ((start 0xFFFF 0 1 0).readV 1).toNat ∧
    (under (fun p => { p with iOverflow := .fault }) (start 0xFFFF 0 1 0)).params.iOverflow = .fault := by decide

/-- LD B and LD [I], Vx: the last bytes of memory; the first byte that is not reserved, under `fault`; address 0, under `store` -/
theorem witness_StoreInRange :
    StoreInRange (start 0xFFD 0 0 0) 3 ∧ StoreInRange (start 0xFF0 0 0 0) ((15 : Reg).val + 1) ∧ StoreInRange (start 0 0 0 0) 3 ∧
    StoreInRange (under (fun p => { p with reservedStore := .fault }) (start 0x200 0 0 0)) 3 :=
  ⟨⟨by decide, by decide⟩, ⟨by decide, by decide⟩, ⟨by decide, by decide⟩, ⟨by decide, by decide⟩⟩

theorem witness_LdRegsMem : (start 0xFF0 0 0 0).i.toNat + (15 : Reg).val + 1 ≤ 4096 := by decide

theorem witness_AccessPastMemory :
    4096 < (start 0xFFE 0 0 0).i.toNat + 3 ∧ 0x200 ≤ (start 0xFFE 0 0 0).i.toNat ∧
    4096 < (start 0xFF1 0 0 0).i.toNat + (15 : Reg).val + 1 ∧ (15 : Nibble) ≠ 0 ∧
    4096 < (start 0xFF2 0 0 0).i.toNat + (15 : Nibble).toNat := by decide

theorem witness_ReservedStore :
    (under (fun p => { p with reservedStore := .fault }) (start 0x1FF 0 0 0)).params.reservedStore = .fault ∧
    (start 0x1FF 0 0 0).i.toNat < 0x200 := by decide

/-- a completed LD [I], V0 (a single byte) and LD B, at PC values one byte before, at and after the stored bytes' first one -/
theorem witness_StoredInstructions :
    exec (.ldMemRegs 0) (start 0x300 0x60 0 0) = .next (nextOf (exec (.ldMemRegs 0) (start 0x300 0x60 0 0))) ∧
    (nextOf (exec (.ldMemRegs 0) (start 0x300 0x60 0 0))).status = .running ∧
    nextEvent (nextOf (exec (.ldMemRegs 0) (start 0x300 0x60 0 0))) = .cycle ∧
    exec (.ldB 0) (start 0xFFD 0x60 0 0) = .next (nextOf (exec (.ldB 0) (start 0xFFD 0x60 0 0))) ∧
    (nextOf (exec (.ldB 0) (start 0xFFD 0x60 0 0))).status = .running ∧
    nextEvent (nextOf (exec (.ldB 0) (start 0xFFD 0x60 0 0))) = .cycle ∧
    (0x2FF : Word).toNat + 1 < 4096 ∧ (0x300 : Word).toNat + 1 < 4096 ∧ (0xFFE : Word).toNat + 1 < 4096 :=
  ⟨rfl, by decide, by decide, rfl, by decide, by decide, by decide⟩

/-- L1-6 and R76: the digits LD B stores are fetched as instructions, here 0x0105 at 0x300, a SYS. -/
theorem test_stored_digits_are_fetched :
    decodeWord (byteAfterStore (start 0x300 157 0 0) 3 (digitByte 157) 0x300 ++
      byteAfterStore (start 0x300 157 0 0) 3 (digitByte 157) 0x301) = .sys 0x105 := by decide

/-- DRW: no row at all, whatever I is; the last bytes of memory -/
theorem witness_SpriteInRange : SpriteInRange (start 0xFFFF 0 0 0) 0 ∧ SpriteInRange (start 0xFF1 0 0 0) 15 :=
  ⟨.inl rfl, .inr (by decide)⟩

/-- a drawn pixel of glyph 0 at the origin, and one that is not drawn -/
theorem witness_DrawnAt : DrawnAt (start 0x050 0 0 0) 0 1 5 3 4 ∧ ¬ DrawnAt (start 0x050 0 0 0) 0 1 5 4 0 := by
  refine ⟨⟨4, 3, by decide⟩, ?_⟩
  rintro ⟨r, b, hr, hb, hx, hy, h⟩
  have hb4 : b = 4 := by
    have : (4 : Nat) = 0 + b := hx
    omega
  have hr0 : r = 0 := by
    have : (0 : Nat) = 0 + r := hy
    omega
  subst hb4 hr0
  exact absurd h (by decide)

theorem witness_DrawingTwice :
    SpriteInRange (start 0x050 0 0 0) 5 ∧ SpriteInRange (nextOf (exec (.drw 0 1 5) (start 0x050 0 0 0))) 5 ∧
    exec (.drw 0 1 5) (start 0x050 0 0 0) = .next (nextOf (exec (.drw 0 1 5) (start 0x050 0 0 0))) ∧
    (nextOf (exec (.drw 0 1 5) (start 0x050 0 0 0))).readV VF = 0 ∧
    (nextOf (exec (.drw 0 1 5) (start 0x050 0 0 0))).readV 0 = (start 0x050 0 0 0).readV 0 ∧
    (nextOf (exec (.drw 0 1 5) (start 0x050 0 0 0))).readV 1 = (start 0x050 0 0 0).readV 1 ∧
    ∀ r, r < (5 : Nibble).toNat →
      (nextOf (exec (.drw 0 1 5) (start 0x050 0 0 0))).readMem ((nextOf (exec (.drw 0 1 5) (start 0x050 0 0 0))).i.toNat + r) =
        (start 0x050 0 0 0).readMem ((start 0x050 0 0 0).i.toNat + r) :=
  ⟨.inr (by decide), .inr (by decide), rfl, by decide, rfl, rfl, fun _ _ => rfl⟩

theorem witness_KeySkips :
    ((start 0 0 15 0).readV 1).toNat = (15 : Key).val ∧
    (under (fun p => { p with keyIndex := .mask }) (start 0 0 0x10 0)).params.keyIndex = .mask ∧
    ((start 0 0 0x10 0).readV 1).toNat % 16 = (0 : Key).val ∧
    (start 0 0 0x10 0).params.keyIndex = .fault ∧ 0x0F < ((start 0 0 0x10 0).readV 1).toNat := by decide

theorem witness_WaitForKey :
    (∀ k, State.reset.readKey k = false) ∧ (State.reset.setKey 15 true).readKey 15 = true ∧
    ∀ j, j < 15 → (State.reset.setKey 15 true).readKey j = false := by decide

theorem witness_WaitingForAKey :
    (State.reset.withFetchWord 16 0xF30A).status = .running ∧ nextEvent (State.reset.withFetchWord 16 0xF30A) = .cycle ∧
    (State.reset.withFetchWord 16 0xF30A).pc.toNat + 1 < 4096 ∧
    decode [(State.reset.withFetchWord 16 0xF30A).readMem 0x200, (State.reset.withFetchWord 16 0xF30A).readMem 0x201] =
      .ok (.ldK 3, []) ∧
    ∀ k, (State.reset.withFetchWord 16 0xF30A).readKey k = false :=
  ⟨by decide, by decide, by decide, rfl, by decide⟩

/-- A stop of each reason: what a running engine's instruction can raise. -/
theorem witness_Stops :
    (nextOf (exec .ret State.reset)).status = .stopped ⟨.stackUnderflow, 0x1FE⟩ ∧
    (nextOf (exec (.call 0) (State.reset.setStack (List.replicate 16 0)))).status = .stopped ⟨.stackOverflow, 0x1FE⟩ ∧
    (nextOf (exec (.drw 0 0 2) (start 0xFFF 0 0 0))).status = .stopped ⟨.memoryBounds, 0x1000⟩ ∧
    (nextOf (exec (.skp 1) (start 0 0 0x10 0))).status = .stopped ⟨.keyIndex, 0x1FE⟩ ∧
    (nextOf (exec (.seRegN 0 0 1) (under (fun p => { p with skipLowNibble := .fault }) State.reset))).status =
      .stopped ⟨.illegalEncoding, 0x1FE⟩ ∧
    (nextOf (exec (.ldMemRegs 0) (under (fun p => { p with reservedStore := .fault }) State.reset))).status =
      .stopped ⟨.reservedWrite, 0⟩ ∧
    (nextOf (exec (.addI 1) (under (fun p => { p with iOverflow := .fault }) (start 0xFFFF 0 1 0)))).status =
      .stopped ⟨.indexOverflow, 0x1FE⟩ := by decide

theorem witness_DefaultParameters :
    (State.reset.withFetchWord 16 0x00EE).params = defaultParams ∧ (State.reset.withFetchWord 16 0x00EE).status = .running ∧
    step (State.reset.withFetchWord 16 0x00EE) = .next (run1 0x00EE State.reset) ∧
    (run1 0x00EE State.reset).status = .stopped ⟨.stackUnderflow, 0x200⟩ :=
  ⟨by decide, by decide, rfl, by decide⟩

/-- the whole-machine rules: an instruction that changes each of the fields they speak of, and one that may not -/
theorem witness_changes :
    Instr.cls.writesPc = false ∧ (Instr.addReg 0 1).writesReg 2 = false ∧
    (nextOf (exec (.call 0) State.reset)).stack ≠ State.reset.stack ∧ (nextOf (exec (.ldI 1) State.reset)).i ≠ State.reset.i ∧
    (nextOf (exec (.drw 0 0 1) (start 0x050 0 0 0))).disp ≠ State.reset.disp ∧
    (nextOf (exec (.ldK 0) (State.reset.setKey 3 true))).key ≠ (State.reset.setKey 3 true).key ∧
    (nextOf (exec (.ldMemRegs 0) (start 0x300 1 0 0))).mem ≠ State.reset.mem ∧
    (nextOf (exec (.ldDTVx 0) (start 0 1 0 0))).dt ≠ State.reset.dt ∧
    (nextOf (exec (.ldSTVx 0) (start 0 1 0 0))).st ≠ State.reset.st ∧
    (nextOf (exec (.rnd 0 0) State.reset)).draws ≠ State.reset.draws := by decide

theorem witness_BootMeetsTheInvariant : ∃ s, boot defaultParams defaultFont [0x00, 0xE0] = .ok s := ⟨_, rfl⟩

theorem witness_Inv : Inv State.reset :=
  ⟨by decide, by decide, rfl, fun _ h => nomatch h⟩
theorem witness_StepKeepsTheInvariant : step State.reset = .next (nextOf (step State.reset)) := rfl

theorem witness_Canonical : Memory.wf [(0x200, 1), (0xFFF, 2)] := by decide

end Sys2Proof.Machine
end

/-! SUPPORT. What an instruction can do, said once (`exec_effect`): every instruction answers a next state, and that state comes from
the old one in one of the ways `Effect` lists. The whole-machine rules about the fields of the state (10_state.md) read their answer
off this list. -/

namespace Sys2Proof.Machine

/-! ## What an instruction can do -/

/-- The ways an instruction `i` can take the state `s` to the next one, each with the condition under which `i` does so. -/
inductive Effect (s : State) : Instr → State → Prop
  /-- SYS, the unrecognized words, and `5XYN`, `9XYN` as no-ops (R101, R110, R112) -/
  | nothing {i : Instr} : Effect s i s
  /-- a stop, for one of the causes of R231, which sets the status alone (R232) -/
  | stop {i : Instr} (stop : Stop) (explained : StopExplained i s stop) :
      Effect s i (raiseStop stop.reason stop.info s)
  /-- a jump, a skip, taken or not, or the rewind of LD Vx, K (R26) -/
  | jump {i : Instr} (w : Word) (writes : i.writesPc = true) : Effect s i (s.setPc w)
  /-- RET (R102) -/
  | ret (below : List Word) (top : Word) (split : s.stack = below ++ [top]) :
      Effect s .ret ((s.setPc top).setStack below)
  /-- CALL (R104) -/
  | call (nnn : Imm12) (room : s.stack.length < stackDepth) :
      Effect s (.call nnn) ((s.setStack (s.stack ++ [s.pc])).setPc (zext16 nnn))
  /-- new values for registers among those the instruction writes (R23) -/
  | regs {i : Instr} (v : Vector Byte 16) (kept : ∀ r, i.writesReg r = false → (s.setRegs v).readV r = s.readV r) :
      Effect s i (s.setRegs v)
  /-- RND (R143) -/
  | rnd (x : Reg) (nn b : Byte) : Effect s (.rnd x nn) ((countDraw s).setV x b)
  /-- CLS (R181) -/
  | cls (d : Display) : Effect s .cls (s.setDisp d)
  /-- DRW (R182) -/
  | drw (x y : Reg) (n : Nibble) (d : Display) (b : Byte) : Effect s (.drw x y n) ((s.setDisp d).setV VF b)
  /-- LD I, ADD I and LD F (R160, R161, R162) -/
  | index {i : Instr} (w : Word) (writes : (∃ nnn, i = .ldI nnn) ∨ ∃ x, i = .addI x ∨ i = .ldF x) :
      Effect s i (s.setI w)
  /-- LD B and LD [I], Vx: bytes stored inside memory (R163, R164) -/
  | store {i : Instr} (a : Nat) (bytes : List Byte) (writes : ∃ x, i = .ldB x ∨ i = .ldMemRegs x)
      (inside : a + bytes.length ≤ memSize) : Effect s i (s.setMem (Memory.writeList s.mem a bytes))
  /-- LD Vx, K that takes a key (R202) -/
  | takeKey (x : Reg) (k : Key) : Effect s (.ldK x) ((s.setV x (keyByte k)).setKey k false)
  /-- LD DT, Vx (R204) -/
  | delay (x : Reg) (b : Byte) : Effect s (.ldDTVx x) (s.setDT b)
  /-- LD ST, Vx (R205) -/
  | sound (x : Reg) (b : Byte) : Effect s (.ldSTVx x) (s.setST b)

/-! ### The stop a range check names -/

/-- A read range that fails stops with MemoryBounds at an address of the range past the end of memory (R71). -/
theorem checkRange_read_some {base n : Nat} {stop : Stop} (h : checkRange checkRead base n = some stop) :
    stop.reason = .memoryBounds ∧ 4096 ≤ stop.info ∧ base ≤ stop.info ∧ stop.info < base + n := by
  obtain ⟨k, hk, hcheck⟩ := checkRange_some h
  simp only [checkRead, Option.ite_none_right_eq_some, Option.some.injEq] at hcheck
  obtain ⟨hout, rfl⟩ := hcheck
  exact ⟨rfl, hout, by dsimp only; omega, by dsimp only; omega⟩

/-- A write range that fails stops as a read range does, or with ReservedWrite at its first address (R62, R71). -/
theorem checkRange_write_some {p : Params} {base n : Nat} {stop : Stop}
    (h : checkRange (checkWrite p) base n = some stop) :
    (stop.reason = .memoryBounds ∧ 4096 ≤ stop.info ∧ base ≤ stop.info ∧ stop.info < base + n) ∨
    (stop.reason = .reservedWrite ∧ p.reservedStore = .fault ∧ stop.info = base ∧ base < 0x200) := by
  obtain ⟨k, hk, hcheck⟩ := checkRange_some h
  unfold checkWrite at hcheck
  split at hcheck
  · next hout =>
    obtain rfl := Option.some.inj hcheck
    exact .inl ⟨rfl, hout, by dsimp only; omega, by dsimp only; omega⟩
  · split at hcheck
    · next hres =>
      have hbase : base < 0x200 := Nat.lt_of_le_of_lt (Nat.le_add_right base k) hres.1
      have hfirst : checkWrite p (base + 0) = some ⟨.reservedWrite, base⟩ := by
        rw [checkWrite, if_neg (by simp only [memSize]; omega), if_pos ⟨hbase, hres.2⟩, Nat.add_zero]
      have hstop := checkRange_first (n := n) (by omega) hfirst (fun j hj => absurd hj (Nat.not_lt_zero j))
      obtain rfl := Option.some.inj (h.symm.trans hstop)
      exact .inr ⟨rfl, hres.2, rfl, hbase⟩
    · cases hcheck

/-- The stop of a failed read range is explained for every instruction that reads up to 16 bytes from I on (R231). -/
theorem stopExplained_of_read {i : Instr} {s : State} {n : Nat} {stop : Stop}
    (hi : (∃ x y n, i = .drw x y n) ∨ (∃ x, i = .ldB x ∨ i = .ldMemRegs x ∨ i = .ldRegsMem x)) (hn : n ≤ 16)
    (h : checkRange checkRead s.i.toNat n = some stop) : StopExplained i s stop := by
  obtain ⟨hreason, hout, hlow, hhigh⟩ := checkRange_read_some h
  simp only [StopExplained, hreason]
  exact ⟨hi, hout, hlow, by omega⟩

/-- The stop of a failed write range is explained for the two instructions that store (R231). -/
theorem stopExplained_of_write {i : Instr} {s : State} {n : Nat} {stop : Stop}
    (hi : ∃ x, i = .ldB x ∨ i = .ldMemRegs x) (hn : n ≤ 16)
    (h : checkRange (checkWrite s.params) s.i.toNat n = some stop) : StopExplained i s stop := by
  rcases checkRange_write_some h with ⟨hreason, hout, hlow, hhigh⟩ | ⟨hreason, hfault, hinfo, hlow⟩
  · obtain ⟨x, hx⟩ := hi
    simp only [StopExplained, hreason]
    exact ⟨.inr ⟨x, hx.imp_right .inl⟩, hout, hlow, by omega⟩
  · simp only [StopExplained, hreason]
    exact ⟨hi, hfault, hinfo, hlow⟩

/-! ### The shared operations -/

theorem effect_unlessStop {i : Instr} {s go : State} {failed : Option Stop}
    (hstop : ∀ stop, failed = some stop → StopExplained i s stop) (hgo : failed = none → Effect s i go) :
    Effect s i (unlessStop failed s go) := by
  cases failed with
  | none => exact hgo rfl
  | some stop => exact .stop stop (hstop stop rfl)

theorem effect_skipIf {i : Instr} (hi : i.writesPc = true) (taken : Bool) (s : State) :
    Effect s i (skipIf taken s) := by
  rw [skipIf_eq]
  exact .jump _ hi

theorem effect_setV {i : Instr} {x : Reg} (hx : i.writesReg x = true) (b : Byte) (s : State) :
    Effect s i (s.setV x b) := by
  refine .regs (s.setV x b).v fun r hr => ?_
  have hne : r ≠ x := by rintro rfl; simp [hx] at hr
  exact (State.readV_setV s x r b).trans (if_neg hne)

theorem effect_writeResultFlag {i : Instr} {x : Reg} (hx : i.writesReg x = true) (hflag : i.writesReg VF = true)
    (result : Byte) (flag : Bool) (s : State) : Effect s i (writeResultFlag x result flag s) := by
  rw [writeResultFlag_frame]
  refine .regs _ fun r hr => ?_
  have hne : r ≠ x := by rintro rfl; simp [hx] at hr
  have hne' : r ≠ VF := by rintro rfl; simp [hflag] at hr
  exact (readV_writeResultFlag x r result flag s).trans (by rw [if_neg hne', if_neg hne])

/-- `5XYN` and `9XYN`: nothing, a skip or the stop IllegalEncoding (R110). -/
theorem effect_lowNibbleSkip {i : Instr} (hi : ∃ x y n, i = .seRegN x y n ∨ i = .sneRegN x y n)
    (hpc : i.writesPc = true) (taken : Bool) (s : State) : Effect s i (lowNibbleSkip taken s) := by
  unfold lowNibbleSkip
  split
  · exact .nothing
  · exact effect_skipIf hpc taken s
  · next hfault => exact .stop ⟨.illegalEncoding, instrAddr s⟩ ⟨hi, hfault, rfl⟩

/-- No key index is resolved only for a byte above 0x0F under P_KEY_INDEX = fault (R206). -/
theorem keyIndex_none {p : Params} {b : Byte} (h : keyIndex p b = none) : 0x0F < b.toNat ∧ p.keyIndex = .fault := by
  unfold keyIndex at h
  split at h
  · cases h
  · next hb =>
    split at h
    · next hp => exact ⟨by omega, hp⟩
    · cases h

/-- SKP and SKNP: a skip or the stop KeyIndex (R200, R201, R206). -/
theorem effect_keySkip {i : Instr} {x : Reg} (hi : i = .skp x ∨ i = .sknp x) (hpc : i.writesPc = true) (down : Bool)
    (s : State) : Effect s i (keySkip x down s) := by
  unfold keySkip
  split
  · exact effect_skipIf hpc _ s
  · next hnone =>
    obtain ⟨hb, hp⟩ := keyIndex_none hnone
    exact .stop ⟨.keyIndex, instrAddr s⟩ ⟨⟨x, hi, hb⟩, hp, rfl⟩

/-! ### The instructions with cases of their own -/

theorem execRet_effect (s : State) : ∃ t, execRet s = .next t ∧ Effect s .ret t := by
  rcases List.eq_nil_or_concat s.stack with hnil | ⟨below, top, hsplit⟩
  · refine ⟨raiseStop .stackUnderflow (instrAddr s) s, by simp [execRet, hnil], ?_⟩
    exact .stop ⟨.stackUnderflow, instrAddr s⟩ ⟨rfl, hnil, rfl⟩
  · rw [List.concat_eq_append] at hsplit
    exact ⟨_, by simp [execRet, hsplit], .ret below top hsplit⟩

theorem execCall_effect (nnn : Imm12) (s : State) : ∃ t, execCall nnn s = .next t ∧ Effect s (.call nnn) t := by
  by_cases hfull : stackDepth ≤ s.stack.length
  · exact ⟨_, if_pos hfull, .stop ⟨.stackOverflow, instrAddr s⟩ ⟨⟨nnn, rfl⟩, hfull, rfl⟩⟩
  · exact ⟨_, if_neg hfull, .call nnn (by omega)⟩

theorem execAddI_effect (x : Reg) (s : State) : ∃ t, execAddI x s = .next t ∧ Effect s (.addI x) t := by
  by_cases hover : 65536 ≤ s.i.toNat + (s.readV x).toNat ∧ s.params.iOverflow = .fault
  · exact ⟨_, if_pos hover, .stop ⟨.indexOverflow, instrAddr s⟩ ⟨⟨x, rfl, hover.1⟩, hover.2, rfl⟩⟩
  · exact ⟨_, if_neg hover, .index _ (.inr ⟨x, .inl rfl⟩)⟩

theorem execLdK_effect (x : Reg) (s : State) : ∃ t, execLdK x s = .next t ∧ Effect s (.ldK x) t := by
  unfold execLdK
  split
  · exact ⟨_, rfl, .takeKey x _⟩
  · exact ⟨_, rfl, .jump _ rfl⟩

theorem execDrw_effect (x y : Reg) (n : Nibble) (s : State) :
    ∃ t, execDrw x y n s = .next t ∧ Effect s (.drw x y n) t := by
  refine ⟨_, rfl, effect_unlessStop (fun stop h => ?_) fun _ => .drw x y n _ _⟩
  exact stopExplained_of_read (.inl ⟨x, y, n, rfl⟩) n.isLt.le h

theorem execLdB_effect (x : Reg) (s : State) : ∃ t, execLdB x s = .next t ∧ Effect s (.ldB x) t := by
  have hi : ∃ z, Instr.ldB x = .ldB z ∨ Instr.ldB x = .ldMemRegs z := ⟨x, .inl rfl⟩
  refine ⟨_, rfl, effect_unlessStop (fun stop h => stopExplained_of_write hi (by decide) h) fun h => ?_⟩
  exact .store _ _ hi (checkRange_write_none (Nat.succ_pos 2) h)

theorem execLdMemRegs_effect (x : Reg) (s : State) : ∃ t, execLdMemRegs x s = .next t ∧ Effect s (.ldMemRegs x) t := by
  have hi : ∃ z, Instr.ldMemRegs x = .ldB z ∨ Instr.ldMemRegs x = .ldMemRegs z := ⟨x, .inr rfl⟩
  refine ⟨_, rfl, effect_unlessStop (fun stop h => stopExplained_of_write hi x.isLt h) fun h => ?_⟩
  refine .store _ _ hi ?_
  rw [length_regBlock]
  exact checkRange_write_none (Nat.succ_pos _) h

theorem execLdRegsMem_effect (x : Reg) (s : State) : ∃ t, execLdRegsMem x s = .next t ∧ Effect s (.ldRegsMem x) t := by
  refine ⟨_, rfl, effect_unlessStop (fun stop h => ?_) fun _ => .regs _ fun r hr => ?_⟩
  · exact stopExplained_of_read (.inr ⟨x, .inr (.inr rfl)⟩) x.isLt h
  · have habove : ¬ r ≤ x := of_decide_eq_false hr
    exact (getElem_loadBlock ..).trans (if_neg (mt Nat.le_of_lt_succ habove))

/-! ### Every instruction -/

/-- Every instruction answers a next state, and in one of the ways `Effect` lists (R238). -/
theorem exec_effect (i : Instr) (s : State) : ∃ t, exec i s = .next t ∧ Effect s i t := by
  cases i with
  | sys | unrecognized => exact ⟨s, rfl, .nothing⟩
  | jp | jpV0 => exact ⟨_, rfl, .jump _ rfl⟩
  | seImm | sneImm | seReg | sneReg => exact ⟨_, rfl, effect_skipIf rfl _ s⟩
  | seRegN x y n => exact ⟨_, rfl, effect_lowNibbleSkip ⟨x, y, n, .inl rfl⟩ rfl _ s⟩
  | sneRegN x y n => exact ⟨_, rfl, effect_lowNibbleSkip ⟨x, y, n, .inr rfl⟩ rfl _ s⟩
  | skp x => exact ⟨_, rfl, effect_keySkip (.inl rfl) rfl _ s⟩
  | sknp x => exact ⟨_, rfl, effect_keySkip (.inr rfl) rfl _ s⟩
  | ret => exact execRet_effect s
  | call nnn => exact execCall_effect nnn s
  | ldImm | addImm | ldReg | orReg | andReg | xorReg | ldVxDT =>
    exact ⟨_, rfl, effect_setV (by simp [Instr.writesReg]) _ s⟩
  | addReg | sub | shr | subn | shl =>
    exact ⟨_, rfl, effect_writeResultFlag (by simp [Instr.writesReg]) (by simp [Instr.writesReg]) _ _ s⟩
  | rnd x nn => exact ⟨_, rfl, .rnd x nn _⟩
  | cls => exact ⟨_, rfl, .cls _⟩
  | drw x y n => exact execDrw_effect x y n s
  | ldI nnn => exact ⟨_, rfl, .index _ (.inl ⟨nnn, rfl⟩)⟩
  | addI x => exact execAddI_effect x s
  | ldF x => exact ⟨_, rfl, .index _ (.inr ⟨x, .inr rfl⟩)⟩
  | ldB x => exact execLdB_effect x s
  | ldMemRegs x => exact execLdMemRegs_effect x s
  | ldRegsMem x => exact execLdRegsMem_effect x s
  | ldK x => exact execLdK_effect x s
  | ldDTVx x => exact ⟨_, rfl, .delay x _⟩
  | ldSTVx x => exact ⟨_, rfl, .sound x _⟩

/-- The inversion of a meaning: the next state it answers is one of those `Effect` lists. -/
theorem effect_of_exec {i : Instr} {s t : State} (h : exec i s = .next t) : Effect s i t := by
  obtain ⟨u, hu, heffect⟩ := exec_effect i s
  obtain rfl : u = t := Host.Outcome.next.inj (hu.symm.trans h)
  exact heffect

/-! ## Who changes which field (10_state.md) -/

/-- Settles O51: of the effects, only a jump, RET and CALL set PC, and their instructions are those of `Instr.writesPc`. -/
theorem onlyControlInstructionsChangePc : Obligations.OnlyControlInstructionsChangePc := by
  intro i s t h hpc
  cases effect_of_exec h with
  | jump w writes => exact absurd (writes.symm.trans hpc) (by decide)
  | ret | call => cases hpc
  | _ => rfl

/-- Settles O52: the effects that set registers do so among those of `Instr.writesReg`. -/
theorem onlyDestinationsAndFlagsChange : Obligations.OnlyDestinationsAndFlagsChange := by
  intro i r s t h hr
  cases effect_of_exec h with
  | regs v kept => exact kept r hr
  | rnd x | drw | takeKey x =>
    exact (State.readV_setV ..).trans (if_neg (by simpa [Instr.writesReg] using hr))
  | _ => rfl

/-- Settles O53: of the effects, only RET and CALL set the stack. -/
theorem onlyCallAndRetChangeTheStack : Obligations.OnlyCallAndRetChangeTheStack := by
  intro i s t h hne
  cases effect_of_exec h with
  | ret => exact .inl rfl
  | call nnn => exact .inr ⟨nnn, rfl⟩
  | _ => exact absurd rfl hne

/-- Settles O54: of the effects, only `index` sets I. -/
theorem onlyIndexInstructionsChangeI : Obligations.OnlyIndexInstructionsChangeI := by
  intro i s t h hne
  cases effect_of_exec h with
  | index w writes => exact writes
  | _ => exact absurd rfl hne

/-- Settles O55: each of the three fields is set by the effects of its own instructions alone. -/
theorem onlyTheirInstructionsChangeDisplayKeysMemory : Obligations.OnlyTheirInstructionsChangeDisplayKeysMemory := by
  intro i s t h
  have heffect := effect_of_exec h
  refine ⟨fun hdisp => ?_, fun hkey => ?_, fun hmem => ?_⟩
  · cases heffect with
    | cls => exact .inl rfl
    | drw x y n => exact .inr ⟨x, y, n, rfl⟩
    | _ => exact absurd rfl hdisp
  · cases heffect with
    | takeKey x => exact ⟨x, rfl⟩
    | _ => exact absurd rfl hkey
  · cases heffect with
    | store a bytes writes => exact writes
    | _ => exact absurd rfl hmem

/-- The audio level, the audio signals and the parameters are as before, whatever the instruction (R31, R205). -/
theorem Effect.audio_params_kept {i : Instr} {s t : State} (h : Effect s i t) :
    t.audioOn = s.audioOn ∧ t.audioOut = s.audioOut ∧ t.params = s.params := by
  cases h <;> exact ⟨rfl, rfl, rfl⟩

/-- Settles O56: no effect sets the audio or the parameters, and the timers and the draw counter have one instruction each. -/
theorem onlyTimerMovesChangeTimersAndNoneSignals : Obligations.OnlyTimerMovesChangeTimersAndNoneSignals := by
  intro i s t h
  have heffect := effect_of_exec h
  obtain ⟨hlevel, hsignals, hparams⟩ := heffect.audio_params_kept
  refine ⟨fun hdt => ?_, fun hst => ?_, hlevel, hsignals, hparams, fun hdraws => ?_⟩
  · cases heffect with
    | delay x => exact ⟨x, rfl⟩
    | _ => exact absurd rfl hdt
  · cases heffect with
    | sound x => exact ⟨x, rfl⟩
    | _ => exact absurd rfl hst
  · cases heffect with
    | rnd x nn => exact ⟨x, nn, rfl⟩
    | _ => exact absurd rfl hdraws

/-! ## The schedule (log entry 4): each operation gives the same with another one -/

theorem unlessStop_setSched (failed : Option Stop) (s : State) (l : List Event) {go go' : State}
    (h : go' = go.setSched l) : unlessStop failed (s.setSched l) go' = (unlessStop failed s go).setSched l := by
  subst h
  cases failed <;> rfl

theorem skipIf_setSched (taken : Bool) (s : State) (l : List Event) :
    skipIf taken (s.setSched l) = (skipIf taken s).setSched l := by
  cases taken <;> rfl

theorem writeResultFlag_setSched (x : Reg) (result : Byte) (flag : Bool) (s : State) (l : List Event) :
    writeResultFlag x result flag (s.setSched l) = (writeResultFlag x result flag s).setSched l := by
  simp only [writeResultFlag, State.setSched_params]
  cases s.params.vfOrder <;> rfl

theorem lowNibbleSkip_setSched (taken : Bool) (s : State) (l : List Event) :
    lowNibbleSkip taken (s.setSched l) = (lowNibbleSkip taken s).setSched l := by
  simp only [lowNibbleSkip, State.setSched_params]
  cases s.params.skipLowNibble with
  | noop | fault => rfl
  | ignore => exact skipIf_setSched taken s l

theorem keySkip_setSched (x : Reg) (down : Bool) (s : State) (l : List Event) :
    keySkip x down (s.setSched l) = (keySkip x down s).setSched l := by
  simp only [keySkip, State.setSched_params, State.readV_setSched]
  cases keyIndex s.params (s.readV x) with
  | none => rfl
  | some k => exact skipIf_setSched _ s l

/-- An instruction runs alike under every schedule, and hands the schedule on (R35). -/
theorem exec_setSched (i : Instr) (s : State) (l : List Event) :
    ∃ t, exec i s = .next t ∧ exec i (s.setSched l) = .next (t.setSched l) := by
  cases i with
  | seImm | sneImm | seReg | sneReg => exact ⟨_, rfl, congrArg _ (skipIf_setSched _ s l)⟩
  | seRegN | sneRegN => exact ⟨_, rfl, congrArg _ (lowNibbleSkip_setSched _ s l)⟩
  | skp | sknp => exact ⟨_, rfl, congrArg _ (keySkip_setSched _ _ s l)⟩
  | addReg | sub | shr | subn | shl => exact ⟨_, rfl, congrArg _ (writeResultFlag_setSched _ _ _ s l)⟩
  | drw | ldB | ldMemRegs | ldRegsMem => exact ⟨_, rfl, congrArg Host.Outcome.next (unlessStop_setSched _ s l rfl)⟩
  | ret =>
    simp only [exec, execRet, State.setSched_stack]
    cases s.stack.getLast? <;> exact ⟨_, rfl, rfl⟩
  | call =>
    by_cases hfull : stackDepth ≤ s.stack.length
    · exact ⟨_, if_pos hfull, if_pos hfull⟩
    · exact ⟨_, if_neg hfull, if_neg hfull⟩
  | addI x =>
    by_cases hover : 65536 ≤ s.i.toNat + (s.readV x).toNat ∧ s.params.iOverflow = .fault
    · exact ⟨_, if_pos hover, if_pos hover⟩
    · exact ⟨_, if_neg hover, if_neg hover⟩
  | ldK =>
    have hkeys : keyFirstDown (s.setSched l) = keyFirstDown s := rfl
    simp only [exec, execLdK, hkeys]
    cases keyFirstDown s <;> exact ⟨_, rfl, rfl⟩
  | _ => exact ⟨_, rfl, rfl⟩

/-- Settles O17, by `exec_setSched`. -/
theorem instructionsDoNotSeeTheSchedule : Obligations.InstructionsDoNotSeeTheSchedule := by
  intro i s t coming h
  obtain ⟨u, hu, hcoming⟩ := exec_setSched i s coming
  obtain rfl : u = t := Host.Outcome.next.inj (hu.symm.trans h)
  exact hcoming

/-! ## The wait for a key -/

/-- A cycle step of a running engine runs the word it fetches, PC advanced first (R100, R250). -/
theorem step_of_cycle {s : State} (hrun : s.status = .running) (hev : nextEvent s = .cycle)
    (hpc : s.pc.toNat + 1 < 4096) : step s = exec (decodeWord (fetchWord s s.pc)) (advance (takeEvent s)) := by
  have hserve : serve (nextEvent s) (takeEvent s) = cycleStep (takeEvent s) := by
    simp only [serve, takeEvent, State.setSched_status, hrun, hev, serveRunning]
  have hfetch : fetchFails (takeEvent s).pc = false := by
    rw [← Bool.not_eq_true, fetchFails_iff, takeEvent, State.setSched_pc]
    omega
  exact hserve.trans (cycleStep_fetches hfetch)

/-- Two bytes that decode to an instruction are the word that does (R67, R83). -/
theorem decodeWord_of_decode {hi lo : Byte} {i : Instr} (h : decode [hi, lo] = .ok (i, [])) :
    decodeWord (bigEndian hi lo) = i :=
  congrArg Prod.fst (Except.ok.inj h)

/-- LD Vx, K with no key down takes PC back to its own address (R202). -/
theorem execLdK_of_no_key (x : Reg) {s : State} (h : ∀ k, s.readKey k = false) :
    execLdK x s = .next (s.setPc (s.pc - 2)) := by
  simp only [execLdK, keyFirstDown_none.2 h]

/-- Settles O45: the rewind takes back the fetch's PC advance. -/
theorem waitingForAKeyChangesNothing : Obligations.WaitingForAKeyChangesNothing := by
  intro x s hrun hev hpc hdecode hkeys
  have hword : decodeWord (fetchWord s s.pc) = .ldK x := decodeWord_of_decode hdecode
  have hback : (advance (takeEvent s)).pc - 2 = s.pc := BitVec.add_sub_cancel s.pc 2
  have hkeys' : ∀ k, (advance (takeEvent s)).readKey k = false := hkeys
  calc step s = execLdK x (advance (takeEvent s)) := by rw [step_of_cycle hrun hev hpc, hword]; rfl
    _ = .next ((advance (takeEvent s)).setPc s.pc) := by rw [execLdK_of_no_key x hkeys', hback]

/-! ## Reset -/

/-- The reset content of an address: its byte of the font image, 0 outside it (R61, R66). -/
theorem resetByte_eq (a : Nat) :
    resetByte a = if 0x050 ≤ a ∧ a < 0x0A0 then defaultFont.toList.getD (a - 0x050) 0 else 0 := by
  have hfont : defaultFont.toList = fontBytes := rfl
  have hlen : fontBytes.length = 80 := by decide
  rw [resetByte, hfont]
  by_cases hlow : a < 0x050
  · rw [if_pos hlow, if_neg (by omega)]
  · rw [if_neg hlow]
    by_cases hhigh : a < 0x0A0
    · rw [if_pos ⟨by omega, hhigh⟩]
    · rw [if_neg (by omega), List.getD_eq_default _ _ (by simp only [hlen, fontBase]; omega)]

/-- Settles O6: the grid at reset is the cleared one, memory at reset is the reset content, the rest is `State.reset` as written. -/
theorem resetHoldsTheResetValues : Obligations.ResetHoldsTheResetValues := by
  have hregs : ∀ r, State.reset.readV r = 0 := by decide
  have hkeys : ∀ k, State.reset.readKey k = false := by decide
  exact ⟨hregs, rfl, rfl, rfl, rfl, rfl, Display.pixel_clear, hkeys, rfl, rfl, resetByte_eq, rfl, rfl, rfl⟩

/-- Settles O57: with nothing listed in memory, on the stack or among the signals, and no stop recorded, each clause is immediate. -/
theorem resetMeetsTheInvariant : Obligations.ResetMeetsTheInvariant where
  memory := Memory.wf_nil
  depth := Nat.zero_le stackDepth
  audio := rfl
  stopInfo := nofun

end Sys2Proof.Machine

/-! SUPPORT. Memory and the invariant (20_memory.md): every step keeps the invariant, the stops of the accesses to memory, what a
store leaves for the next fetch, and the canonical form as the one list of its content. -/

namespace Sys2Proof.Machine

/-! ## The invariant along a step -/

/-- Signals that follow a list of signals start from the level that list ends at (R241). -/
theorem audioLevelAfter_append {level mid : Bool} {earlier : List AudioSignal} (later : List AudioSignal)
    (h : audioLevelAfter level earlier = some mid) :
    audioLevelAfter level (earlier ++ later) = audioLevelAfter mid later := by
  induction earlier generalizing level with
  | nil =>
    obtain rfl : level = mid := Option.some.inj h
    rfl
  | cons sig rest ih =>
    cases level <;> cases sig
    case false.start | true.stop => exact ih h
    case false.stop | true.start => cases h

/-- A stop that R231 explains records what its reason says. -/
theorem Stop.wf_of_explained {i : Instr} {s : State} {stop : Stop} (h : StopExplained i s stop) : Stop.wf stop := by
  obtain ⟨reason, info⟩ := stop
  cases reason with
  | memoryBounds =>
    obtain ⟨-, hout, -, -⟩ := h
    exact Nat.le_of_succ_le hout
  | reservedWrite =>
    obtain ⟨-, -, hinfo, hlow⟩ := h
    exact hinfo.trans_lt hlow
  | stackUnderflow | stackOverflow | keyIndex | illegalEncoding | indexOverflow =>
    obtain ⟨-, -, hinfo⟩ := h
    exact hinfo.trans_lt (s.pc - 2).isLt

namespace Inv

variable {s : State}

theorem raiseStop (h : Inv s) {stop : Stop} (hstop : Stop.wf stop) :
    Inv (Machine.raiseStop stop.reason stop.info s) where
  memory := h.memory
  depth := h.depth
  audio := h.audio
  stopInfo := by
    rintro _ ⟨⟩
    exact hstop

theorem setMem (h : Inv s) {m : Memory} (hm : Memory.wf m) : Inv (s.setMem m) :=
  ⟨hm, h.depth, h.audio, h.stopInfo⟩

theorem setStack (h : Inv s) {l : List Word} (hl : l.length ≤ stackDepth) : Inv (s.setStack l) :=
  ⟨h.memory, hl, h.audio, h.stopInfo⟩

theorem setPc (h : Inv s) (w : Word) : Inv (s.setPc w) := ⟨h.memory, h.depth, h.audio, h.stopInfo⟩

theorem setSched (h : Inv s) (l : List Event) : Inv (s.setSched l) := ⟨h.memory, h.depth, h.audio, h.stopInfo⟩

theorem setKey (h : Inv s) (k : Key) (down : Bool) : Inv (s.setKey k down) :=
  ⟨h.memory, h.depth, h.audio, h.stopInfo⟩

/-- Whatever an instruction does keeps the invariant: a stop is an explained one, RET and CALL keep within the stack's depth, the
stores within memory, and every other effect leaves the four parts alone. -/
theorem effect (h : Inv s) {i : Instr} {t : State} (heffect : Effect s i t) : Inv t := by
  cases heffect with
  | stop stop explained => exact h.raiseStop (Stop.wf_of_explained explained)
  | ret below top split =>
    refine (h.setPc top).setStack (le_trans ?_ h.depth)
    simp [split]
  | call nnn room =>
    refine (h.setStack ?_).setPc _
    simpa using room
  | store a bytes writes inside => exact h.setMem (Memory.wf_writeList h.memory a bytes inside)
  | nothing | jump | regs | rnd | cls | drw | index | takeKey | delay | sound =>
    exact ⟨h.memory, h.depth, h.audio, h.stopInfo⟩

/-- A timer tick keeps the invariant: the signals it adds take the audio trigger to its new level (R240, R241). -/
theorem tickTimers (h : Inv s) : Inv (Machine.tickTimers s) := by
  rw [tickTimers_eq]
  refine ⟨h.memory, h.depth, ?_, h.stopInfo⟩
  dsimp only
  rw [List.append_assoc, audioLevelAfter_append _ h.audio]
  by_cases h0 : s.st = 0#8
  · cases s.audioOn <;> simp [h0, audioLevelAfter]
  · by_cases h1 : s.st = 1#8
    · cases s.audioOn <;> simp [h1, audioLevelAfter]
    · cases s.audioOn <;> simp [h0, h1, audioLevelAfter]

/-- A cycle step keeps the invariant: its fetch stops at a failing address, or an instruction runs (R65, R100). -/
theorem cycleStep (h : Inv s) {t : State} (hstep : Machine.cycleStep s = .next t) : Inv t := by
  cases hfetch : fetchFails s.pc with
  | true =>
    obtain rfl := Host.Outcome.next.inj ((cycleStep_fails hfetch).symm.trans hstep)
    exact h.raiseStop (stop := ⟨.memoryBounds, s.pc.toNat⟩) ((fetchFails_iff s.pc).1 hfetch)
  | false =>
    have hexec := (cycleStep_fetches hfetch).symm.trans hstep
    exact (h.setPc (s.pc + 2)).effect (effect_of_exec hexec)

end Inv

/-- What serving a transaction can answer: a snapshot's unchanged state, or, while running, what a cycle step, a timer tick or a key
event leaves (R250). -/
theorem serve_cases {e : Event} {s t : State} (h : serve e s = .next t) :
    t = s ∨ (s.status = .running ∧
      (cycleStep s = .next t ∨ t = tickTimers s ∨ ∃ k down, t = hostSetKey k down s)) := by
  cases hstatus : s.status with
  | running =>
    simp only [serve, hstatus] at h
    cases e with
    | cycle => exact .inr ⟨rfl, .inl h⟩
    | timerTick => exact .inr ⟨rfl, .inr (.inl (Host.Outcome.next.inj h).symm)⟩
    | key k down => exact .inr ⟨rfl, .inr (.inr ⟨k, down, (Host.Outcome.next.inj h).symm⟩)⟩
    | snapshot => exact .inl (Host.Outcome.next.inj h).symm
  | stopped stop =>
    simp only [serve, hstatus] at h
    cases e with
    | snapshot => exact .inl (Host.Outcome.next.inj h).symm
    | cycle | timerTick | key => cases h

/-- Settles O59: each transaction keeps the invariant, and taking it off the schedule does. -/
theorem stepKeepsTheInvariant : Obligations.StepKeepsTheInvariant := by
  intro s t hinv hstep
  have htaken : Inv (takeEvent s) := hinv.setSched s.sched.tail
  rcases serve_cases hstep with rfl | ⟨-, hcycle | rfl | ⟨k, down, rfl⟩⟩
  · exact htaken
  · exact htaken.cycleStep hcycle
  · exact htaken.tickTimers
  · exact htaken.setKey k down

/-! ## The stops of the accesses to memory -/

/-- An instruction whose range check fails stops with what the check names, and does nothing else (R232, R233). -/
theorem stopsWith_of_check {i : Instr} {s go : State} {failed : Option Stop} {reason : StopReason} {info : Nat}
    (hexec : exec i s = .next (unlessStop failed s go)) (hfailed : failed = some ⟨reason, info⟩) :
    StopsWith i s reason info := by
  subst hfailed
  exact hexec

/-- A range that leaves memory, and fails nowhere inside it, stops with MemoryBounds at the first address past the end (R71, D5). -/
theorem checkRange_past_end {check : Nat → Option Stop} {base n : Nat} (hn : 0 < n) (hend : 4096 < base + n)
    (hin : ∀ a, base ≤ a → a < 4096 → check a = none)
    (hout : ∀ a, 4096 ≤ a → check a = some ⟨.memoryBounds, a⟩) :
    checkRange check base n = some ⟨.memoryBounds, max base 4096⟩ := by
  have hfirst : base + (4096 - base) = max base 4096 := by omega
  refine checkRange_first (k := 4096 - base) (by omega) ?_ fun j hj => hin _ (by omega) (by omega)
  rw [hfirst]
  exact hout _ (le_max_right base 4096)

theorem checkRange_read_past_end {base n : Nat} (hn : 0 < n) (hend : 4096 < base + n) :
    checkRange checkRead base n = some ⟨.memoryBounds, max base 4096⟩ :=
  checkRange_past_end hn hend (fun a _ hin => (checkRead_none a).2 hin) fun _ hout => if_pos hout

theorem checkRange_write_past_end {p : Params} {base n : Nat} (hn : 0 < n) (hend : 4096 < base + n)
    (hallowed : 0x200 ≤ base ∨ p.reservedStore = .store) :
    checkRange (checkWrite p) base n = some ⟨.memoryBounds, max base 4096⟩ :=
  checkRange_past_end hn hend
    (fun a hlow hin => (checkWrite_none p a).2 ⟨hin, hallowed.imp_left fun h => h.trans hlow⟩) fun _ hout => if_pos hout

/-- Settles O37: each of the four checks its addresses before it does anything else. -/
theorem accessPastMemoryStops : Obligations.AccessPastMemoryStops := by
  intro x y n s
  refine ⟨fun hend hallowed => ?_, fun hend hallowed => ?_, fun hend => ?_, fun hn hend => ?_⟩
  · exact stopsWith_of_check rfl (checkRange_write_past_end (Nat.succ_pos 2) hend hallowed)
  · exact stopsWith_of_check rfl (checkRange_write_past_end x.val.succ_pos hend hallowed)
  · exact stopsWith_of_check rfl (checkRange_read_past_end x.val.succ_pos hend)
  · have hrows : 0 < n.toNat := Nat.pos_of_ne_zero fun h => hn (BitVec.eq_of_toNat_eq h)
    exact stopsWith_of_check rfl (checkRange_read_past_end hrows hend)

/-- Under P_RESERVED_STORE = fault a write range that begins in the reserved region fails at its first address (R62, D6). -/
theorem checkRange_write_reserved {p : Params} {base n : Nat} (hn : 0 < n) (hfault : p.reservedStore = .fault)
    (hlow : base < 0x200) : checkRange (checkWrite p) base n = some ⟨.reservedWrite, base⟩ := by
  have hin : ¬ memSize ≤ base := by simp only [memSize]; omega
  refine checkRange_first (k := 0) hn ?_ fun j hj => absurd hj (Nat.not_lt_zero j)
  rw [Nat.add_zero, checkWrite, if_neg hin, if_pos ⟨hlow, hfault⟩]

/-- Settles O38, by `checkRange_write_reserved`. -/
theorem reservedStoreStopsUnderFault : Obligations.ReservedStoreStopsUnderFault := by
  intro x s hfault hlow
  exact ⟨stopsWith_of_check rfl (checkRange_write_reserved (Nat.succ_pos 2) hfault hlow),
    stopsWith_of_check rfl (checkRange_write_reserved x.val.succ_pos hfault hlow)⟩

/-! ## A fetch after a store -/

/-- A checked operation that leaves the engine running has passed its check. -/
theorem eq_of_unlessStop_running {failed : Option Stop} {s go : State}
    (h : (unlessStop failed s go).status = .running) : unlessStop failed s go = go := by
  cases failed with
  | none => rfl
  | some stop => cases h

/-- What bytes stored from I on leave at an address (R14, R73). -/
theorem read_writeList_eq_byteAfterStore (s : State) {n : Nat} {bytes : List Byte} {b : Nat → Byte}
    (hlen : bytes.length = n) (hbytes : ∀ k, k < n → bytes.getD k 0 = b k) (a : Nat) :
    Memory.read (Memory.writeList s.mem s.i.toNat bytes) a = byteAfterStore s n b a := by
  rw [Memory.read_writeList, hlen, byteAfterStore]
  split
  · exact hbytes _ (by omega)
  · rfl

/-- The next cycle step of a state left by stores from I on, at whatever PC, fetches the bytes as they then are (R76, R284). -/
theorem step_after_store {s t : State} {failed : Option Stop} {n : Nat} {bytes : List Byte} {b : Nat → Byte} {p : Word}
    (ht : unlessStop failed s (s.setMem (Memory.writeList s.mem s.i.toNat bytes)) = t)
    (hlen : bytes.length = n) (hbytes : ∀ k, k < n → bytes.getD k 0 = b k)
    (hrun : t.status = .running) (hev : nextEvent t = .cycle) (hp : p.toNat + 1 < 4096) :
    step { t with pc := p } =
      exec (decodeWord (byteAfterStore s n b p.toNat ++ byteAfterStore s n b (p.toNat + 1)))
        { t with pc := p + 2, sched := t.sched.tail } := by
  have hmem : t.mem = Memory.writeList s.mem s.i.toNat bytes := by
    subst ht
    rw [eq_of_unlessStop_running hrun, State.setMem_mem]
  have hread : ∀ a, Memory.read t.mem a = byteAfterStore s n b a := fun a =>
    hmem ▸ read_writeList_eq_byteAfterStore s hlen hbytes a
  rw [← hread, ← hread]
  exact step_of_cycle (s := { t with pc := p }) hrun hev hp

theorem getD_bcdDigits (b : Byte) (k : Nat) (hk : k < 3) : (bcdDigits b).getD k 0 = digitByte b k := by
  match k, hk with
  | 0, _ | 1, _ | 2, _ => rfl

/-- Byte `k` of the block V0..Vx is register `k` (R164). -/
theorem getD_regBlock_ofNat (s : State) (x : Reg) (k : Nat) (hk : k < x.val + 1) :
    (regBlock s x).getD k 0 = s.readV (Fin.ofNat 16 k) := by
  have hval : (Fin.ofNat 16 k).val = k := Nat.mod_eq_of_lt (by omega)
  have hle : Fin.ofNat 16 k ≤ x := Fin.le_def.2 (by omega)
  simpa only [hval] using getD_regBlock s x (Fin.ofNat 16 k) hle

/-- Settles O39: LD [I], Vx and LD B are checked stores from I on, of the register block and of the three digits. -/
theorem storedInstructionsAreFetched : Obligations.StoredInstructionsAreFetched := by
  intro x p s t hrun hev hp
  refine ⟨fun hexec => ?_, fun hexec => ?_⟩
  · exact step_after_store (Host.Outcome.next.inj hexec) (length_regBlock s x) (getD_regBlock_ofNat s x) hrun hev hp
  · exact step_after_store (Host.Outcome.next.inj hexec) rfl (getD_bcdDigits (s.readV x)) hrun hev hp

/-! ## The canonical form -/

/-- A byte that differs from its reset content is listed. -/
theorem Memory.mem_of_read_ne {m : Memory} {a : Nat} (h : Memory.read m a ≠ resetByte a) : (a, Memory.read m a) ∈ m := by
  induction m with
  | nil => exact absurd rfl h
  | cons c rest ih =>
    rw [Memory.read] at h ⊢
    split at h
    · next hc =>
      subst hc
      rw [if_pos rfl]
      exact List.mem_cons_self
    · next hc =>
      rw [if_neg hc]
      exact List.mem_cons_of_mem c (ih h)

/-- Where addresses rise, a listed byte is what its address reads. -/
theorem Memory.read_of_mem {m : Memory} (hsorted : m.Pairwise fun c d => c.1 < d.1) {c : Host.Cell} (hc : c ∈ m) :
    Memory.read m c.1 = c.2 := by
  induction m with
  | nil => cases hc
  | cons d rest ih =>
    obtain ⟨hbelow, hrest⟩ := List.pairwise_cons.1 hsorted
    rcases List.mem_cons.1 hc with rfl | hc
    · exact if_pos rfl
    · exact (if_neg (hbelow c hc).ne).trans (ih hrest hc)

/-- A canonical memory lists exactly the bytes that differ from their reset content (R66, R73). -/
theorem Memory.mem_iff_read {m : Memory} (h : Memory.wf m) (c : Host.Cell) :
    c ∈ m ↔ Memory.read m c.1 = c.2 ∧ c.2 ≠ resetByte c.1 := by
  obtain ⟨hsorted, hlisted⟩ := h
  refine ⟨fun hc => ⟨Memory.read_of_mem hsorted hc, (hlisted c hc).2⟩, fun ⟨hread, hne⟩ => ?_⟩
  have hmem : (c.1, Memory.read m c.1) ∈ m := Memory.mem_of_read_ne (hread.trans_ne hne)
  rwa [hread] at hmem

/-- Settles O60: the two memories list the same bytes, and lists with rising addresses and the same members are equal. -/
theorem canonicalMemoriesThatReadAlikeAreEqual : Obligations.CanonicalMemoriesThatReadAlikeAreEqual := by
  intro m m' hm hm' hread
  have hasymm : Std.Antisymm fun c d : Host.Cell => c.1 < d.1 := ⟨fun c d h h' => absurd h' h.asymm⟩
  have hirrefl : Std.Irrefl fun c d : Host.Cell => c.1 < d.1 := ⟨fun c => Nat.lt_irrefl c.1⟩
  refine hm.1.eq_of_mem_iff hm'.1 fun c => ?_
  rw [Memory.mem_iff_read hm, Memory.mem_iff_read hm', hread]

/-! ## Memory at reset -/

/-- Settles O7: the glyphs are the 80 bytes of the font region, and outside it the reset content is 0 (`resetByte_eq`). -/
theorem resetMemoryHoldsTheFont : Obligations.ResetMemoryHoldsTheFont := by
  constructor
  · intro d k hd hk
    revert k
    revert d
    decide
  · intro a hout
    exact (resetByte_eq a).trans (if_neg (by omega))

/-! ## The fetch -/

/-- A cycle tick of a running engine is served by a cycle step (R250). -/
theorem step_eq_cycleStep {s : State} (hrun : s.status = .running) (hev : nextEvent s = .cycle) :
    step s = cycleStep (takeEvent s) := by
  simp only [step, serve, takeEvent, State.setSched_status, hrun, hev, serveRunning]

/-- Settles O11: the cycle step's fetch stops. -/
theorem fetchOutOfRangeStops : Obligations.FetchOutOfRangeStops := by
  intro s hrun hev hout
  exact (step_eq_cycleStep hrun hev).trans (cycleStep_fails ((fetchFails_iff s.pc).2 hout))

end Sys2Proof.Machine

/-! SUPPORT. The decoder and the encoder are inverse to each other (30_encoding.md R83, R84): `decodeWord_eq_iff` says a word decodes
to an instruction exactly when the instruction is well-formed and encodes to the word. It rests on the opcode table: which of its
rows overlap, and that an instruction is well-formed exactly when no row before its own takes its word. -/

namespace Sys2Proof

/-! ## Rows that overlap -/

/-- Two rows that take one word agree on the bits that both masks keep. -/
theorem Row.patterns_agree_of_takes {p q : Row} {w : Word} (hp : p.takes w = true) (hq : q.takes w = true) :
    p.pattern &&& q.mask = q.pattern &&& p.mask := by
  rw [← beq_iff_eq.1 hp, ← beq_iff_eq.1 hq, BitVec.and_assoc, BitVec.and_assoc, BitVec.and_comm p.mask]

/-- The places of the rows that agree on the bits both masks keep, read off the table. -/
theorem places_of_patterns_agree {j k : Fin opcodeRows.length} : j < k →
    opcodeRows[j].pattern &&& opcodeRows[k].mask = opcodeRows[k].pattern &&& opcodeRows[j].mask →
    (j.val, k.val) ∈ [(0, 2), (1, 2), (7, 8), (20, 21)] := by
  revert j k
  decide

/-- Two rows of the table take one word at four pairs of places only (R83). -/
theorem places_of_takes {w : Word} {j k : Nat} {p q : Row} (hjk : j < k) (hp : opcodeRows[j]? = some p)
    (hq : opcodeRows[k]? = some q) (htp : p.takes w = true) (htq : q.takes w = true) :
    (j, k) ∈ [(0, 2), (1, 2), (7, 8), (20, 21)] := by
  obtain ⟨hj, rfl⟩ := List.getElem?_eq_some_iff.1 hp
  obtain ⟨hk, rfl⟩ := List.getElem?_eq_some_iff.1 hq
  exact places_of_patterns_agree (j := ⟨j, hj⟩) (k := ⟨k, hk⟩) hjk (Row.patterns_agree_of_takes htp htq)

/-! ## The first row that takes a word -/

/-- No row before place `k` takes the word. -/
def NoRowBefore (k : Nat) (w : Word) : Prop := ∀ j p, j < k → opcodeRows[j]? = some p → p.takes w = false

/-- The decoder's search finds the row that takes the word and before which no row does (R83). -/
theorem find_row_iff {w : Word} {r : Row} :
    opcodeRows.find? (fun r => r.takes w) = some r ↔
      ∃ k, opcodeRows[k]? = some r ∧ r.takes w = true ∧ NoRowBefore k w := by
  rw [List.find?_eq_some_iff_getElem]
  constructor
  · rintro ⟨htakes, k, hk, hr, hbefore⟩
    refine ⟨k, List.getElem?_eq_some_iff.2 ⟨hk, hr⟩, htakes, fun j p hj hp => ?_⟩
    obtain ⟨_, rfl⟩ := List.getElem?_eq_some_iff.1 hp
    simpa using hbefore j hj
  · rintro ⟨k, hk, htakes, hbefore⟩
    obtain ⟨hlt, hr⟩ := List.getElem?_eq_some_iff.1 hk
    exact ⟨htakes, k, hlt, hr, fun j hj => by simp [hbefore j _ hj (List.getElem?_eq_getElem (hj.trans hlt))]⟩

/-- A word decodes to what the first row that takes it builds. -/
theorem decodeWord_of_first {w : Word} {k : Nat} {r : Row} (hr : opcodeRows[k]? = some r) (htakes : r.takes w = true)
    (hbefore : NoRowBefore k w) : decodeWord w = r.build w := by
  rw [decodeWord, find_row_iff.2 ⟨k, hr, htakes, hbefore⟩]

/-- A word that no row takes decodes to the catch-all (R87). -/
theorem decodeWord_of_none {w : Word} (h : ∀ r ∈ opcodeRows, r.takes w = false) : decodeWord w = .unrecognized w := by
  rw [decodeWord, List.find?_eq_none.2 fun r hr => by simp [h r hr]]

/-- Every word has a first row that takes it, or none takes it. -/
theorem first_or_none (w : Word) :
    (∃ k r, opcodeRows[k]? = some r ∧ r.takes w = true ∧ NoRowBefore k w) ∨ ∀ r ∈ opcodeRows, r.takes w = false := by
  cases hfind : opcodeRows.find? (fun r => r.takes w) with
  | some r =>
    obtain ⟨k, hk⟩ := find_row_iff.1 hfind
    exact .inl ⟨k, r, hk⟩
  | none => exact .inr fun r hr => by simpa using List.find?_eq_none.1 hfind r hr

/-! ## A word is its fields -/

theorem wordXYN_fields (w : Word) : wordXYN (kindField w) (xField w) (yField w) (nField w) = w := by
  apply BitVec.eq_of_toNat_eq
  rw [toNat_wordXYN, kindField_toNat, xField_val, yField_val, nField_toNat]
  omega

theorem wordXNN_fields (w : Word) : wordXNN (kindField w) (xField w) (nnField w) = w := by
  apply BitVec.eq_of_toNat_eq
  rw [toNat_wordXNN, kindField_toNat, xField_val, nnField_toNat]
  omega

theorem wordNNN_fields (w : Word) : wordNNN (kindField w) (nnnField w) = w := (word_eq_kind_nnn w).symm

/-! ## The fields a row's mask fixes -/

section fixedFields
variable {w p : Word} {s : String} {f : Word → Instr}

theorem eq_of_takes_FFFF (h : (Row.mk s 0xFFFF p f).takes w = true) : w = p :=
  BitVec.eq_of_toNat_eq (of_decide_eq_true ((takes_FFFF ..).symm.trans h))

theorem kindField_of_takes_F000 (h : (Row.mk s 0xF000 p f).takes w = true) : kindField w = kindField p := by
  have hnum : w.toNat / 4096 * 4096 = p.toNat := of_decide_eq_true ((takes_F000 ..).symm.trans h)
  apply BitVec.eq_of_toNat_eq
  rw [kindField_toNat, kindField_toNat]
  omega

theorem fields_of_takes_F00F (h : (Row.mk s 0xF00F p f).takes w = true) :
    kindField w = kindField p ∧ nField w = nField p := by
  have hnum : w.toNat % 16 + w.toNat / 4096 * 4096 = p.toNat := of_decide_eq_true ((takes_F00F ..).symm.trans h)
  constructor <;> apply BitVec.eq_of_toNat_eq
  · rw [kindField_toNat, kindField_toNat]
    omega
  · rw [nField_toNat, nField_toNat]
    omega

theorem fields_of_takes_F0FF (h : (Row.mk s 0xF0FF p f).takes w = true) :
    kindField w = kindField p ∧ nnField w = nnField p := by
  have hnum : w.toNat % 256 + w.toNat / 4096 * 4096 = p.toNat := of_decide_eq_true ((takes_F0FF ..).symm.trans h)
  constructor <;> apply BitVec.eq_of_toNat_eq
  · rw [kindField_toNat, kindField_toNat]
    omega
  · rw [nnField_toNat, nnField_toNat]
    omega

theorem wordNNN_of_takes_F000 (h : (Row.mk s 0xF000 p f).takes w = true) :
    wordNNN (kindField p) (nnnField w) = w := by
  rw [← kindField_of_takes_F000 h, wordNNN_fields]

theorem wordXNN_of_takes_F000 (h : (Row.mk s 0xF000 p f).takes w = true) :
    wordXNN (kindField p) (xField w) (nnField w) = w := by
  rw [← kindField_of_takes_F000 h, wordXNN_fields]

theorem wordXYN_of_takes_F000 (h : (Row.mk s 0xF000 p f).takes w = true) :
    wordXYN (kindField p) (xField w) (yField w) (nField w) = w := by
  rw [← kindField_of_takes_F000 h, wordXYN_fields]

theorem wordXYN_of_takes_F00F (h : (Row.mk s 0xF00F p f).takes w = true) :
    wordXYN (kindField p) (xField w) (yField w) (nField p) = w := by
  obtain ⟨hkind, hn⟩ := fields_of_takes_F00F h
  rw [← hkind, ← hn, wordXYN_fields]

theorem wordXNN_of_takes_F0FF (h : (Row.mk s 0xF0FF p f).takes w = true) :
    wordXNN (kindField p) (xField w) (nnField p) = w := by
  obtain ⟨hkind, hnn⟩ := fields_of_takes_F0FF h
  rw [← hkind, ← hnn, wordXNN_fields]

end fixedFields

/-! ## What a row builds -/

/-- The instruction a row builds from a word it takes encodes to that word: the mask fixes the fields that are no operand. -/
def Row.EncodesBack (r : Row) : Prop := ∀ w, r.takes w = true → encodeWord (r.build w) = w

theorem rowsLow_encodesBack : ∀ r ∈ rowsLow, r.EncodesBack := by
  simp only [rowsLow, List.forall_mem_cons, List.not_mem_nil, false_imp_iff, implies_true, and_true]
  exact ⟨fun _ h => (eq_of_takes_FFFF h).symm, fun _ h => (eq_of_takes_FFFF h).symm,
    fun _ => wordNNN_of_takes_F000, fun _ => wordNNN_of_takes_F000, fun _ => wordNNN_of_takes_F000,
    fun _ => wordXNN_of_takes_F000, fun _ => wordXNN_of_takes_F000,
    fun _ => wordXYN_of_takes_F00F, fun _ => wordXYN_of_takes_F000,
    fun _ => wordXNN_of_takes_F000, fun _ => wordXNN_of_takes_F000⟩

theorem rowsAlu_encodesBack : ∀ r ∈ rowsAlu, r.EncodesBack := by
  simp only [rowsAlu, List.forall_mem_cons, List.not_mem_nil, false_imp_iff, implies_true, and_true]
  refine ⟨?_, ?_, ?_, ?_, ?_, ?_, ?_, ?_, ?_⟩ <;> exact fun _ => wordXYN_of_takes_F00F

theorem rowsMid_encodesBack : ∀ r ∈ rowsMid, r.EncodesBack := by
  simp only [rowsMid, List.forall_mem_cons, List.not_mem_nil, false_imp_iff, implies_true, and_true]
  exact ⟨fun _ => wordXYN_of_takes_F00F, fun _ => wordXYN_of_takes_F000,
    fun _ => wordNNN_of_takes_F000, fun _ => wordNNN_of_takes_F000,
    fun _ => wordXNN_of_takes_F000, fun _ => wordXYN_of_takes_F000,
    fun _ => wordXNN_of_takes_F0FF, fun _ => wordXNN_of_takes_F0FF⟩

theorem rowsHigh_encodesBack : ∀ r ∈ rowsHigh, r.EncodesBack := by
  simp only [rowsHigh, List.forall_mem_cons, List.not_mem_nil, false_imp_iff, implies_true, and_true]
  refine ⟨?_, ?_, ?_, ?_, ?_, ?_, ?_, ?_, ?_⟩ <;> exact fun _ => wordXNN_of_takes_F0FF

theorem opcodeRows_encodesBack : ∀ r ∈ opcodeRows, r.EncodesBack := by
  simp only [opcodeRows, List.forall_mem_append]
  exact ⟨⟨⟨rowsLow_encodesBack, rowsAlu_encodesBack⟩, rowsMid_encodesBack⟩, rowsHigh_encodesBack⟩

/-- The row at a place builds the instructions of that place. -/
theorem rowIndex_build {k : Nat} {r : Row} (hr : opcodeRows[k]? = some r) (w : Word) : (r.build w).rowIndex = k := by
  have hplaces : opcodeRows.map (fun r => (r.build w).rowIndex) = List.range 37 := rfl
  have hk : (List.range 37)[k]? = some (r.build w).rowIndex := by rw [← hplaces, List.getElem?_map, hr, Option.map_some]
  obtain ⟨_, hval⟩ := List.getElem?_eq_some_iff.1 hk
  rw [← hval, List.getElem_range]

/-! ## Well-formed: no row before the instruction's own takes its word -/

theorem sysOperandOk_iff {nnn : Imm12} : sysOperandOk nnn = true ↔ nnn ≠ 0x0E0 ∧ nnn ≠ 0x0EE := by
  simp [sysOperandOk]

theorem lowNibbleOk_iff {n : Nibble} : lowNibbleOk n = true ↔ n ≠ 0 := by
  simp [lowNibbleOk]

/-- The law of every instruction that Laws/PerInstr.lean proves constructor by constructor. -/
theorem rowTakes : ∀ i : Instr, Laws.RowTakes.Statement i
  | .cls => Laws.RowTakes.cls
  | .ret => Laws.RowTakes.ret
  | .sys nnn => Laws.RowTakes.sys nnn
  | .jp nnn => Laws.RowTakes.jp nnn
  | .call nnn => Laws.RowTakes.call nnn
  | .seImm x nn => Laws.RowTakes.seImm x nn
  | .sneImm x nn => Laws.RowTakes.sneImm x nn
  | .seReg x y => Laws.RowTakes.seReg x y
  | .seRegN x y n => Laws.RowTakes.seRegN x y n
  | .ldImm x nn => Laws.RowTakes.ldImm x nn
  | .addImm x nn => Laws.RowTakes.addImm x nn
  | .ldReg x y => Laws.RowTakes.ldReg x y
  | .orReg x y => Laws.RowTakes.orReg x y
  | .andReg x y => Laws.RowTakes.andReg x y
  | .xorReg x y => Laws.RowTakes.xorReg x y
  | .addReg x y => Laws.RowTakes.addReg x y
  | .sub x y => Laws.RowTakes.sub x y
  | .shr x y => Laws.RowTakes.shr x y
  | .subn x y => Laws.RowTakes.subn x y
  | .shl x y => Laws.RowTakes.shl x y
  | .sneReg x y => Laws.RowTakes.sneReg x y
  | .sneRegN x y n => Laws.RowTakes.sneRegN x y n
  | .ldI nnn => Laws.RowTakes.ldI nnn
  | .jpV0 nnn => Laws.RowTakes.jpV0 nnn
  | .rnd x nn => Laws.RowTakes.rnd x nn
  | .drw x y n => Laws.RowTakes.drw x y n
  | .skp x => Laws.RowTakes.skp x
  | .sknp x => Laws.RowTakes.sknp x
  | .ldVxDT x => Laws.RowTakes.ldVxDT x
  | .ldK x => Laws.RowTakes.ldK x
  | .ldDTVx x => Laws.RowTakes.ldDTVx x
  | .ldSTVx x => Laws.RowTakes.ldSTVx x
  | .addI x => Laws.RowTakes.addI x
  | .ldF x => Laws.RowTakes.ldF x
  | .ldB x => Laws.RowTakes.ldB x
  | .ldMemRegs x => Laws.RowTakes.ldMemRegs x
  | .ldRegsMem x => Laws.RowTakes.ldRegsMem x
  | .unrecognized w => Laws.RowTakes.unrecognized w

/-- Every well-formed instruction but the catch-all's has a row, which takes its word and builds it. -/
theorem own_row_or_unrecognized {i : Instr} (hwf : i.wellFormed = true) :
    (∃ r, opcodeRows[i.rowIndex]? = some r ∧ r.takes (encodeWord i) = true ∧ r.build (encodeWord i) = i) ∨
    ∃ w, i = .unrecognized w := by
  have hrow := rowTakes i hwf
  cases i with
  | unrecognized w => exact .inr ⟨w, rfl⟩
  | _ => exact .inl ⟨_, rfl, hrow⟩

/-- A row before the instruction's own takes its word only where the term is ill-formed (R83, R84). -/
theorem noRowBefore_of_wellFormed {i : Instr} (hwf : i.wellFormed = true) : NoRowBefore i.rowIndex (encodeWord i) := by
  intro j p hj hp
  obtain ⟨r, hr, htakes, -⟩ | ⟨w, rfl⟩ := own_row_or_unrecognized hwf
  · rw [← Bool.not_eq_true]
    intro htp
    have hplaces := places_of_takes hj hp hr htp htakes
    cases i with
    | sys nnn =>
      have hj : j = 0 ∨ j = 1 := by simpa [Instr.rowIndex] using hplaces
      obtain ⟨hcls, hret⟩ := sysOperandOk_iff.1 hwf
      obtain rfl | rfl := hj <;> cases hp
      · exact hcls ((nnnField_wordNNN 0 nnn).symm.trans (congrArg nnnField (eq_of_takes_FFFF htp)))
      · exact hret ((nnnField_wordNNN 0 nnn).symm.trans (congrArg nnnField (eq_of_takes_FFFF htp)))
    | seRegN x y n =>
      have hj : j = 7 := by simpa [Instr.rowIndex] using hplaces
      subst hj
      cases hp
      exact lowNibbleOk_iff.1 hwf ((nField_wordXYN 5 n x y).symm.trans (fields_of_takes_F00F htp).2)
    | sneRegN x y n =>
      have hj : j = 20 := by simpa [Instr.rowIndex] using hplaces
      subst hj
      cases hp
      exact lowNibbleOk_iff.1 hwf ((nField_wordXYN 9 n x y).symm.trans (fields_of_takes_F00F htp).2)
    | _ => simp [Instr.rowIndex] at hplaces
  · exact rowTakes _ hwf p (List.mem_of_getElem? hp)

/-- An ill-formed term shares its word with an instruction of an earlier row. -/
theorem wellFormed_of_noRowBefore {i : Instr} (h : NoRowBefore i.rowIndex (encodeWord i)) : i.wellFormed = true := by
  cases i with
  | sys nnn =>
    refine sysOperandOk_iff.2 ⟨?_, ?_⟩ <;> rintro rfl
    · cases h 0 _ (by decide) rfl
    · cases h 1 _ (by decide) rfl
  | seRegN x y n =>
    refine lowNibbleOk_iff.2 ?_
    rintro rfl
    exact Bool.false_ne_true ((h 7 _ (Nat.lt_succ_self 7) rfl).symm.trans (Laws.RowTakes.seReg x y rfl).1)
  | sneRegN x y n =>
    refine lowNibbleOk_iff.2 ?_
    rintro rfl
    exact Bool.false_ne_true ((h 20 _ (Nat.lt_succ_self 20) rfl).symm.trans (Laws.RowTakes.sneReg x y rfl).1)
  | unrecognized w =>
    refine (no_row_takes_iff w).1 fun r hr => ?_
    obtain ⟨j, hj⟩ := List.getElem?_of_mem hr
    exact h j r (List.getElem?_eq_some_iff.1 hj).1 hj
  | _ => rfl

/-! ## The round trip -/

theorem decodeWord_encodeWord {i : Instr} (hwf : i.wellFormed = true) : decodeWord (encodeWord i) = i := by
  obtain ⟨r, hr, htakes, hbuild⟩ | ⟨w, rfl⟩ := own_row_or_unrecognized hwf
  · exact (decodeWord_of_first hr htakes (noRowBefore_of_wellFormed hwf)).trans hbuild
  · exact decodeWord_of_none (rowTakes _ hwf)

theorem wellFormed_and_encodeWord_decodeWord (w : Word) :
    (decodeWord w).wellFormed = true ∧ encodeWord (decodeWord w) = w := by
  obtain ⟨k, r, hr, htakes, hbefore⟩ | hnone := first_or_none w
  · have hback : encodeWord (r.build w) = w := opcodeRows_encodesBack r (List.mem_of_getElem? hr) w htakes
    rw [decodeWord_of_first hr htakes hbefore]
    refine ⟨wellFormed_of_noRowBefore ?_, hback⟩
    rwa [rowIndex_build hr, hback]
  · rw [decodeWord_of_none hnone]
    exact ⟨(no_row_takes_iff w).1 hnone, rfl⟩

/-- A word decodes to the one well-formed instruction that encodes to it. -/
theorem decodeWord_eq_iff {w : Word} {i : Instr} : decodeWord w = i ↔ i.wellFormed = true ∧ encodeWord i = w := by
  constructor
  · rintro rfl
    exact wellFormed_and_encodeWord_decodeWord w
  · rintro ⟨hwf, rfl⟩
    exact decodeWord_encodeWord hwf

/-- Settles O2: the two bytes are the word again, and the first row that takes it is the instruction's own. -/
theorem decodeOfEncodeGivesTheInstructionBack : Obligations.DecodeOfEncodeGivesTheInstructionBack := by
  intro i rest hwf
  simp only [encode, List.cons_append, List.nil_append, decode, bigEndian_bytes, decodeWord_encodeWord hwf]

/-- Settles O3: the first row that takes the word builds an instruction that holds every field its mask leaves free. -/
theorem encodeOfDecodeGivesTheWordBack : Obligations.EncodeOfDecodeGivesTheWordBack :=
  wellFormed_and_encodeWord_decodeWord

/-! ## The words of the catch-all and of SYS -/

/-- The catch-all's words are the well-formed ones of R87. -/
theorem decodes_to_unrecognized_iff (w : Word) : (∃ u, decodeWord w = .unrecognized u) ↔ unrecognizedWord w = true := by
  simp only [decodeWord_eq_iff, Instr.wellFormed, encodeWord, exists_eq_right]

/-- The words of SYS are those of kind 0 but CLS and RET (R84). -/
theorem decodes_to_sys_iff (w : Word) :
    (∃ nnn, decodeWord w = .sys nnn) ↔ w.toNat / 4096 = 0 ∧ w ≠ 0x00E0 ∧ w ≠ 0x00EE := by
  constructor
  · rintro ⟨nnn, hdecode⟩
    obtain ⟨-, hword⟩ := decodeWord_eq_iff.1 hdecode
    refine ⟨?_, ?_, ?_⟩
    · have := nnn.isLt
      rw [← hword, encodeWord, toNat_wordNNN]
      simp only [BitVec.toNat_ofNat, BitVec.ofNat_eq_ofNat]
      omega
    · rintro rfl
      cases (decodeWord_encodeWord (i := .cls) rfl).symm.trans hdecode
    · rintro rfl
      cases (decodeWord_encodeWord (i := .ret) rfl).symm.trans hdecode
  · rintro ⟨hkind, hcls, hret⟩
    have hkind : kindField w = 0 := BitVec.eq_of_toNat_eq ((kindField_toNat w).trans hkind)
    have hword : wordNNN 0 (nnnField w) = w := hkind ▸ wordNNN_fields w
    refine ⟨nnnField w, decodeWord_eq_iff.2 ⟨sysOperandOk_iff.2 ⟨fun h => hcls ?_, fun h => hret ?_⟩, hword⟩⟩ <;>
      rw [← hword, h] <;> rfl

/-- Settles O4: by the round trip, both are the words of the well-formed terms of their constructor. -/
theorem unrecognizedAndSysWordsAreTheListedOnes : Obligations.UnrecognizedAndSysWordsAreTheListedOnes := by
  intro w
  exact ⟨(decodes_to_unrecognized_iff w).trans (unrecognizedWord_iff w), decodes_to_sys_iff w⟩

/-- Settles O5: the four pairs of places of `places_of_takes`, by name. -/
theorem onlyTheNamedRowsOverlap : Obligations.OnlyTheNamedRowsOverlap := by
  intro w j k p q hjk hp hq htp htq
  have hplaces := places_of_takes hjk hp hq htp htq
  simp only [List.mem_cons, Prod.mk.injEq, List.not_mem_nil, or_false] at hplaces
  obtain ⟨rfl, rfl⟩ | ⟨rfl, rfl⟩ | ⟨rfl, rfl⟩ | ⟨rfl, rfl⟩ := hplaces <;> cases hp <;> cases hq <;> simp

/-- Settles O1: each instruction is well-formed and encodes to its word. -/
theorem specWordsDecode : Obligations.SpecWordsDecode := by
  simp only [Obligations.SpecWordsDecode, decodeWord_eq_iff]
  decide

end Sys2Proof

/-! SUPPORT. Control transfer (40_control.md): what RET, CALL and the skips do in each of their cases, and the statements about them. -/

namespace Sys2Proof.Machine

/-! ## The cycle step (R100) -/

/-- Settles O10: a cycle step runs the word it fetches (`step_of_cycle`), and the two bytes are that word. -/
theorem stepRunsTheDecodedInstruction : Obligations.StepRunsTheDecodedInstruction := by
  intro s i hrun hev hpc hdecode
  have hword : decodeWord (fetchWord s s.pc) = i := decodeWord_of_decode hdecode
  calc step s = exec (decodeWord (fetchWord s s.pc)) (advance (takeEvent s)) := step_of_cycle hrun hev hpc
    _ = exec i { s with pc := s.pc + 2, sched := s.sched.tail } := by rw [hword]; rfl

/-! ## SYS, the unrecognized words and the jumps -/

/-- Settles O19: both meanings are no operation. -/
theorem sysAndUnrecognizedDoNothing : Obligations.SysAndUnrecognizedDoNothing :=
  fun _ => ⟨fun _ => rfl, fun _ => rfl⟩

/-- The target of JP V0: nnn plus V0 in 16 bits (R111). -/
theorem toNat_zext16_add_setWidth (nnn : Imm12) (b : Byte) :
    (zext16 nnn + b.setWidth 16).toNat = (nnn.toNat + b.toNat) % 65536 := by
  have hb : (b.setWidth 16).toNat = b.toNat := BitVec.toNat_setWidth_of_le (by decide)
  rw [BitVec.toNat_add, toNat_zext16, hb]

/-- Settles O21: both set PC alone, and zero extension keeps the values of nnn and of V0. -/
theorem jumpsSetPc : Obligations.JumpsSetPc := by
  intro nnn s
  exact ⟨⟨_, rfl, rfl, toNat_zext16 nnn⟩, ⟨_, rfl, rfl, toNat_zext16_add_setWidth nnn (s.readV 0)⟩⟩

/-! ## RET and CALL -/

theorem execRet_of_empty {s : State} (h : s.stack = []) :
    execRet s = .next (raiseStop .stackUnderflow (instrAddr s) s) := by
  rw [execRet, h, List.getLast?_nil]

theorem execRet_of_top {s : State} {below : List Word} {top : Word} (h : s.stack = below ++ [top]) :
    execRet s = .next ((s.setPc top).setStack below) := by
  rw [execRet, h, List.getLast?_concat, List.dropLast_concat]

/-- Settles O20: the stack is empty, or its last entry is the top (R27). -/
theorem retPopsOrUnderflows : Obligations.RetPopsOrUnderflows :=
  fun _ => ⟨execRet_of_empty, fun _ _ => execRet_of_top⟩

theorem execCall_of_room (nnn : Imm12) {s : State} (h : s.stack.length < stackDepth) :
    execCall nnn s = .next ((s.setStack (s.stack ++ [s.pc])).setPc (zext16 nnn)) := if_neg h.not_ge

theorem execCall_of_full (nnn : Imm12) {s : State} (h : stackDepth ≤ s.stack.length) :
    execCall nnn s = .next (raiseStop .stackOverflow (instrAddr s) s) := if_pos h

/-- Settles O22: there is room for one more entry, or the stack is full. -/
theorem callPushesOrOverflows : Obligations.CallPushesOrOverflows := by
  intro nnn s
  refine ⟨fun hroom => ⟨_, execCall_of_room nnn hroom, rfl, toNat_zext16 nnn⟩, fun hfull => ?_⟩
  exact execCall_of_full nnn hfull.ge

/-! ## The skips -/

/-- A skip taken where two bytes are equal, as SE takes it (R105, R106, R108). -/
theorem skipIf_beq (a b : Byte) (s : State) :
    skipIf (a == b) s = s.setPc (if a = b then s.pc + 2 else s.pc) := by
  simp only [skipIf_eq, beq_iff_eq]

/-- A skip taken where two bytes differ, as SNE takes it (R105, R107, R109). -/
theorem skipIf_bne (a b : Byte) (s : State) :
    skipIf (a != b) s = s.setPc (if a = b then s.pc else s.pc + 2) := by
  simp only [skipIf_eq, bne_iff_ne, ite_not]

/-- Settles O23: two skips on equality and two on difference. -/
theorem conditionalSkipsSkipOneWord : Obligations.ConditionalSkipsSkipOneWord := by
  intro x y nn s
  refine ⟨?seImm, ?sneImm, ?seReg, ?sneReg⟩
  case seImm => exact congrArg Host.Outcome.next (skipIf_beq (s.readV x) nn s)
  case sneImm => exact congrArg Host.Outcome.next (skipIf_bne (s.readV x) nn s)
  case seReg => exact congrArg Host.Outcome.next (skipIf_beq (s.readV x) (s.readV y) s)
  case sneReg => exact congrArg Host.Outcome.next (skipIf_bne (s.readV x) (s.readV y) s)

theorem lowNibbleSkip_of_noop {s : State} (h : s.params.skipLowNibble = .noop) (taken : Bool) :
    lowNibbleSkip taken s = s := by
  rw [lowNibbleSkip, h]

theorem lowNibbleSkip_of_ignore {s : State} (h : s.params.skipLowNibble = .ignore) (taken : Bool) :
    lowNibbleSkip taken s = skipIf taken s := by
  rw [lowNibbleSkip, h]

theorem lowNibbleSkip_of_fault {s : State} (h : s.params.skipLowNibble = .fault) (taken : Bool) :
    lowNibbleSkip taken s = raiseStop .illegalEncoding (instrAddr s) s := by
  rw [lowNibbleSkip, h]

/-- Settles O24: the parameter's three values, for the skip on equality and the one on difference. -/
theorem lowNibbleSkipsFollowTheParameter : Obligations.LowNibbleSkipsFollowTheParameter := by
  intro x y n s
  refine ⟨fun hnoop => ?noop, fun hignore => ?ignore, fun hfault => ?fault⟩
  case noop =>
    exact ⟨congrArg Host.Outcome.next (lowNibbleSkip_of_noop hnoop _),
      congrArg Host.Outcome.next (lowNibbleSkip_of_noop hnoop _)⟩
  case ignore =>
    exact ⟨congrArg Host.Outcome.next ((lowNibbleSkip_of_ignore hignore _).trans (skipIf_beq ..)),
      congrArg Host.Outcome.next ((lowNibbleSkip_of_ignore hignore _).trans (skipIf_bne ..))⟩
  case fault =>
    exact ⟨congrArg Host.Outcome.next (lowNibbleSkip_of_fault hfault _),
      congrArg Host.Outcome.next (lowNibbleSkip_of_fault hfault _)⟩

end Sys2Proof.Machine

/-! SUPPORT. Register arithmetic and logic (41_alu.md): the results and flags in numbers, what a register write and the two writes of
R137 do to the register file, and the statements about the instructions that make them. -/

namespace Sys2Proof.Machine

/-! ## Results and flags in numbers (R136) -/

theorem eq_ofNat_of_toNat {b : Byte} {n : Nat} (h : b.toNat = n) : b = BitVec.ofNat 8 n := by
  rw [← h, BitVec.ofNat_toNat, BitVec.setWidth_eq]

theorem addResult_eq (a b : Byte) : addResult a b = BitVec.ofNat 8 ((a.toNat + b.toNat) % 256) :=
  eq_ofNat_of_toNat (toNat_addResult a b)

theorem subResult_eq (a b : Byte) : subResult a b = BitVec.ofNat 8 ((a.toNat + 256 - b.toNat) % 256) :=
  eq_ofNat_of_toNat (toNat_subResult a b)

theorem shrResult_eq (a : Byte) : shrResult a = BitVec.ofNat 8 (a.toNat / 2) :=
  eq_ofNat_of_toNat (toNat_shrResult a)

theorem shlResult_eq (a : Byte) : shlResult a = BitVec.ofNat 8 (a.toNat * 2 % 256) :=
  eq_ofNat_of_toNat (toNat_shlResult a)

theorem addFlag_eq (a b : Byte) : addFlag a b = decide (a.toNat + b.toNat > 255) :=
  Bool.eq_iff_iff.mpr ((addFlag_iff a b).trans decide_eq_true_iff.symm)

theorem subFlag_eq (a b : Byte) : subFlag a b = decide (a.toNat ≥ b.toNat) :=
  Bool.eq_iff_iff.mpr ((subFlag_iff a b).trans decide_eq_true_iff.symm)

theorem shrFlag_eq (a : Byte) : shrFlag a = decide (a.toNat % 2 = 1) :=
  Bool.eq_iff_iff.mpr ((shrFlag_iff a).trans decide_eq_true_iff.symm)

theorem shlFlag_eq (a : Byte) : shlFlag a = decide (a.toNat ≥ 128) :=
  Bool.eq_iff_iff.mpr ((shlFlag_iff a).trans decide_eq_true_iff.symm)

/-! ## The flag writers, each the two writes of R137 -/

section flagWriters

variable (x y : Reg) (s : State)

theorem exec_addReg : exec (.addReg x y) s =
    .next (writeResultFlag x (BitVec.ofNat 8 (((s.readV x).toNat + (s.readV y).toNat) % 256))
      (decide ((s.readV x).toNat + (s.readV y).toNat > 255)) s) := by
  rw [← addResult_eq, ← addFlag_eq]; rfl

theorem exec_sub : exec (.sub x y) s =
    .next (writeResultFlag x (BitVec.ofNat 8 (((s.readV x).toNat + 256 - (s.readV y).toNat) % 256))
      (decide ((s.readV x).toNat ≥ (s.readV y).toNat)) s) := by
  rw [← subResult_eq, ← subFlag_eq]; rfl

theorem exec_subn : exec (.subn x y) s =
    .next (writeResultFlag x (BitVec.ofNat 8 (((s.readV y).toNat + 256 - (s.readV x).toNat) % 256))
      (decide ((s.readV y).toNat ≥ (s.readV x).toNat)) s) := by
  rw [← subResult_eq, ← subFlag_eq]; rfl

theorem exec_shr : exec (.shr x y) s =
    .next (writeResultFlag x (BitVec.ofNat 8 ((s.readV x).toNat / 2)) (decide ((s.readV x).toNat % 2 = 1)) s) := by
  rw [← shrResult_eq, ← shrFlag_eq]; rfl

theorem exec_shl : exec (.shl x y) s =
    .next (writeResultFlag x (BitVec.ofNat 8 ((s.readV x).toNat * 2 % 256)) (decide ((s.readV x).toNat ≥ 128)) s) := by
  rw [← shlResult_eq, ← shlFlag_eq]; rfl

end flagWriters

/-! ## What the writes leave in the register file -/

section writes

variable {i : Instr} {x : Reg} {s : State} {result : Byte} {flag : Bool}

theorem writesReg_of_setV (h : exec i s = .next (s.setV x result)) : WritesReg i s x result :=
  ⟨_, h, rfl, fun r => State.readV_setV s x r result⟩

/-- The flag outlives the result, where the two go to different registers or the flag is written last (R137). -/
theorem writesRegAndFlag_of_writeResultFlag (h : exec i s = .next (writeResultFlag x result flag s))
    (hflag : x ≠ VF ∨ s.params.vfOrder = .flagLast) : WritesRegAndFlag i s x result flag := by
  have hkept : ¬ (x = VF ∧ s.params.vfOrder = .resultLast) := by
    rintro ⟨hx, hlast⟩
    rcases hflag with hne | hfirst
    · exact hne hx
    · cases hfirst.symm.trans hlast
  refine ⟨_, h, writeResultFlag_frame x result flag s, fun r => ?_⟩
  rw [readV_writeResultFlag, if_neg hkept, flagByte]

/-- The result overwrites the flag, where both go to VF and the result is written last (R137, D12). -/
theorem writesReg_of_writeResultFlag_VF (h : exec i s = .next (writeResultFlag VF result flag s))
    (hlast : s.params.vfOrder = .resultLast) : WritesReg i s VF result := by
  have hlost : VF = VF ∧ s.params.vfOrder = .resultLast := ⟨rfl, hlast⟩
  refine ⟨_, h, writeResultFlag_frame VF result flag s, fun r => ?_⟩
  by_cases hr : r = VF
  · rw [readV_writeResultFlag, if_pos hr, if_pos hlost, if_pos hr]
  · rw [readV_writeResultFlag, if_neg hr]

end writes

/-! ## The statements -/

/-- Settles O25: each of the five is one register write. -/
theorem loadsAndLogicWriteTheDestination : Obligations.LoadsAndLogicWriteTheDestination :=
  fun _ _ _ _ => ⟨writesReg_of_setV rfl, writesReg_of_setV rfl, writesReg_of_setV rfl, writesReg_of_setV rfl,
    writesReg_of_setV rfl⟩

/-- Settles O26: one register write, of the sum in 8 bits. -/
theorem addImmediateWrapsWithoutFlag : Obligations.AddImmediateWrapsWithoutFlag := by
  intro x nn s
  rw [← addResult_eq]
  exact writesReg_of_setV rfl

/-- Settles O27, by `exec_addReg`. -/
theorem addWritesSumAndCarry : Obligations.AddWritesSumAndCarry :=
  fun x y s hflag => writesRegAndFlag_of_writeResultFlag (exec_addReg x y s) hflag

/-- Settles O28, by `exec_sub` and `exec_subn`. -/
theorem subAndSubnWriteDifferenceAndNoBorrow : Obligations.SubAndSubnWriteDifferenceAndNoBorrow :=
  fun x y s hflag => ⟨writesRegAndFlag_of_writeResultFlag (exec_sub x y s) hflag,
    writesRegAndFlag_of_writeResultFlag (exec_subn x y s) hflag⟩

/-- Settles O29, by `exec_shr` and `exec_shl`, whose next states do not depend on y. -/
theorem shiftsMoveTheShiftedOutBitToVF : Obligations.ShiftsMoveTheShiftedOutBitToVF :=
  fun x y s hflag => ⟨writesRegAndFlag_of_writeResultFlag (exec_shr x y s) hflag,
    writesRegAndFlag_of_writeResultFlag (exec_shl x y s) hflag⟩

/-- Settles O30: the five flag writers of O27 to O29 with VF as destination, whose result is written last. -/
theorem resultLastLeavesTheResultInVF : Obligations.ResultLastLeavesTheResultInVF := by
  intro y s hlast
  refine ⟨?addReg, ?sub, ?subn, ?shr, ?shl⟩
  case addReg => exact writesReg_of_writeResultFlag_VF (exec_addReg VF y s) hlast
  case sub => exact writesReg_of_writeResultFlag_VF (exec_sub VF y s) hlast
  case subn => exact writesReg_of_writeResultFlag_VF (exec_subn VF y s) hlast
  case shr => exact writesReg_of_writeResultFlag_VF (exec_shr VF y s) hlast
  case shl => exact writesReg_of_writeResultFlag_VF (exec_shl VF y s) hlast

/-- Settles O31: one register write after the draw is counted, and counting a draw touches no register. -/
theorem rndMasksTheDraw : Obligations.RndMasksTheDraw :=
  fun x _ s => ⟨_, rfl, rfl, fun r => State.readV_setV (countDraw s) x r _⟩

end Sys2Proof.Machine

/-! SUPPORT. Index register and memory (42_index_memory.md): what ADD I does in each of its cases, what a checked store and a checked
load do where their addresses pass, and the statements about the instructions that make them. -/

namespace Sys2Proof.Machine

/-! ## LD I, LD F and ADD I -/

/-- The glyph address stays below 2^16 for every byte, so nothing is reduced (R162). -/
theorem toNat_fontAddress (b : Byte) : (fontAddress b).toNat = 0x050 + 5 * b.toNat := by
  have hb := b.isLt
  exact Nat.mod_eq_of_lt (show 0x050 + 5 * b.toNat < 65536 by omega)

/-- Settles O32: each of the two is one write of I, by `toNat_zext16` and `toNat_fontAddress`. -/
theorem ldIAndLdFSetI : Obligations.LdIAndLdFSetI :=
  fun s => ⟨fun nnn => ⟨_, rfl, rfl, toNat_zext16 nnn⟩, fun x => ⟨_, rfl, rfl, toNat_fontAddress (s.readV x)⟩⟩

/-- A sum in range, or any sum under `wrap`, goes to I (R161). -/
theorem execAddI_of_room_or_wrap {x : Reg} {s : State}
    (h : s.i.toNat + (s.readV x).toNat < 65536 ∨ s.params.iOverflow = .wrap) :
    execAddI x s = .next (s.setI (BitVec.ofNat 16 (s.i.toNat + (s.readV x).toNat))) := by
  refine if_neg ?_
  rintro ⟨hsum, hfault⟩
  rcases h with hroom | hwrap
  · exact hsum.not_gt hroom
  · cases hwrap.symm.trans hfault

/-- Settles O33: one write of I by `execAddI_of_room_or_wrap`, else the stop. -/
theorem addIAddsToIndex : Obligations.AddIAddsToIndex := by
  intro x s
  refine ⟨fun h => ⟨_, execAddI_of_room_or_wrap h, rfl, ?_⟩, fun hsum hfault => ?_⟩
  · rw [State.setI_i, BitVec.toNat_ofNat]
  · exact if_pos ⟨hsum, hfault⟩

/-! ## Accesses whose addresses pass their checks (R71) -/

theorem exec_of_check_passed {i : Instr} {s go : State} {failed : Option Stop}
    (hexec : exec i s = .next (unlessStop failed s go)) (hpassed : failed = none) : exec i s = .next go := by
  rw [hexec, hpassed, unlessStop_none]

theorem checkRange_read_inside {base n : Nat} (hend : base + n ≤ 4096) : checkRange checkRead base n = none :=
  (checkRange_none _ _ _).2 fun k hk => (checkRead_none _).2 (show base + k < 4096 by omega)

theorem checkRange_write_of_storeInRange {s : State} {n : Nat} (h : StoreInRange s n) :
    checkRange (checkWrite s.params) s.i.toNat n = none := by
  obtain ⟨hend, hallowed⟩ := h
  refine (checkRange_none _ _ _).2 fun k hk => (checkWrite_none _ _).2 ⟨?_, ?_⟩
  · show s.i.toNat + k < 4096
    omega
  · exact hallowed.imp_left fun hlow => Nat.le_add_right_of_le hlow

/-- A checked store from I on completes where its addresses may be stored to: the bytes stand there in order, and every other byte
and the rest of the state are as before (R163, R164). -/
theorem store_completes {i : Instr} {s : State} {bytes : List Byte} {n : Nat}
    (hexec : exec i s = .next (unlessStop (checkRange (checkWrite s.params) s.i.toNat n) s
      (s.setMem (Memory.writeList s.mem s.i.toNat bytes))))
    (hlen : bytes.length = n) (hrange : StoreInRange s n) :
    ∃ t, exec i s = .next t ∧ t = { s with mem := t.mem } ∧
      (∀ k, k < n → t.readMem (s.i.toNat + k) = bytes.getD k 0) ∧
      ∀ a, a < s.i.toNat ∨ s.i.toNat + n ≤ a → t.readMem a = s.readMem a := by
  refine ⟨_, exec_of_check_passed hexec (checkRange_write_of_storeInRange hrange), rfl, fun k hk => ?_, fun a ha => ?_⟩
  · rw [State.readMem_setMem, Memory.read_writeList, if_pos (by omega), Nat.add_sub_cancel_left]
  · rw [State.readMem_setMem, Memory.read_writeList, if_neg (by omega), State.readMem]

/-! ## LD B, LD [I], Vx and LD Vx, [I] -/

/-- The three digits are numbers below 256, so each byte holds its digit (R163). -/
theorem toNat_getD_bcdDigits (b : Byte) :
    ((bcdDigits b).getD 0 0).toNat = b.toNat / 100 ∧ ((bcdDigits b).getD 1 0).toNat = b.toNat / 10 % 10 ∧
      ((bcdDigits b).getD 2 0).toNat = b.toNat % 10 := by
  have hb := b.isLt
  refine ⟨?hundreds, ?tens, ?units⟩
  case hundreds => exact Nat.mod_eq_of_lt (show b.toNat / 100 < 256 by omega)
  case tens => exact Nat.mod_eq_of_lt (show b.toNat / 10 % 10 < 256 by omega)
  case units => exact Nat.mod_eq_of_lt (show b.toNat % 10 < 256 by omega)

/-- Settles O34: LD B is a checked store of the three digits. -/
theorem ldBStoresThreeDigits : Obligations.LdBStoresThreeDigits := by
  intro x s hrange
  obtain ⟨t, hexec, hframe, hstored, hothers⟩ := store_completes (i := .ldB x) (bytes := bcdDigits (s.readV x)) rfl rfl hrange
  obtain ⟨hhundreds, htens, hunits⟩ := toNat_getD_bcdDigits (s.readV x)
  refine ⟨t, hexec, hframe, ?hundreds, ?tens, ?units, hothers⟩
  case hundreds => rw [← hhundreds, ← hstored 0 (by decide), Nat.add_zero]
  case tens => rw [← htens, ← hstored 1 (by decide)]
  case units => rw [← hunits, ← hstored 2 (by decide)]

/-- Settles O35: LD [I], Vx is a checked store of the register block. -/
theorem ldMemRegsStoresTheBlock : Obligations.LdMemRegsStoresTheBlock := by
  intro x s hrange
  obtain ⟨t, hexec, hframe, hstored, hothers⟩ := store_completes (i := .ldMemRegs x) rfl (length_regBlock s x) hrange
  refine ⟨t, hexec, hframe, fun r hr => ?_, hothers⟩
  rw [hstored r.val (Nat.lt_succ_of_le hr), getD_regBlock s x r hr]

/-- The register file after a load of the block V0..Vx, the registers above Vx being kept (R165). -/
theorem readV_setRegs_loadBlock (s : State) (m : Memory) (base : Nat) (x r : Reg) :
    (s.setRegs (loadBlock m base (x.val + 1) s.v)).readV r = if r ≤ x then Memory.read m (base + r.val) else s.readV r := by
  have hmem : r.val < x.val + 1 ↔ r ≤ x := Nat.lt_succ_iff
  simp only [State.readV, State.setRegs_v, getElem_loadBlock, hmem]

/-- Settles O36: LD Vx, [I] is a checked load of the block, by `readV_setRegs_loadBlock`. -/
theorem ldRegsMemLoadsTheBlock : Obligations.LdRegsMemLoadsTheBlock :=
  fun x s hend => ⟨_, exec_of_check_passed rfl (checkRange_read_inside hend), rfl,
    readV_setRegs_loadBlock s s.mem s.i.toNat x⟩

end Sys2Proof.Machine

/-! SUPPORT. The display (43_display.md): the pixels a DRW covers are those of `DrawnAt`, what a DRW whose bytes are inside memory
leaves on the grid and in VF, a second DRW of the same sprite, CLS and the snapshot read. -/

namespace Sys2Proof.Machine

/-! ## CLS and the snapshot read -/

/-- Settles O40: CLS replaces the grid by the clear one, which has no set pixel (`Display.pixel_clear`). -/
theorem clsZeroesEveryPixel : Obligations.ClsZeroesEveryPixel :=
  fun _ => ⟨_, rfl, rfl, Display.pixel_clear⟩

/-- A snapshot read is served in both statuses, and leaves the state as it is (R250). -/
theorem serve_snapshot (s : State) : serve .snapshot s = .next s := by
  unfold serve
  split
  · rfl
  · rfl

/-- Settles O13: `serve_snapshot` on the state that no longer has the read on its schedule. -/
theorem snapshotChangesNothing : Obligations.SnapshotChangesNothing := by
  intro s es hsched
  refine ⟨?_, rfl⟩
  calc step s = serve .snapshot (s.setSched es) := by rw [step, nextEvent, takeEvent, hsched, List.headD_cons, List.tail_cons]
    _ = .next (s.setSched es) := serve_snapshot _

/-! ## The sprite of a DRW -/

theorem flagByte_eq_one_iff (flag : Bool) : flagByte flag = 1 ↔ flag = true := by cases flag <;> decide

theorem flagByte_eq_zero_iff (flag : Bool) : flagByte flag = 0 ↔ ¬ flag = true := by cases flag <;> decide

/-- The pixels the blit of a DRW covers are the `drawn(r, b)` of R183. -/
theorem covers_sprite_iff_drawnAt (s : State) (x y : Reg) (n : Nibble) (px py : Nat) :
    Covers (startColumn (s.readV x)) (startRow (s.readV y)) (Memory.readList s.mem s.i.toNat n.toNat) px py ↔
      DrawnAt s x y n px py := by
  have hbit : ∀ r, r < n.toNat → (Memory.readList s.mem s.i.toNat n.toNat).getD r 0 = s.readMem (s.i.toNat + r) :=
    fun r hr => Memory.getD_readList _ _ _ r hr
  rw [Covers, Memory.length_readList]
  constructor
  · rintro ⟨r, b, hr, hb, hx, hy, hset⟩
    exact ⟨r, b, hr, hb, hx, hy, hbit r hr ▸ hset⟩
  · rintro ⟨r, b, hr, hb, hx, hy, hset⟩
    exact ⟨r, b, hr, hb, hx, hy, (hbit r hr).symm ▸ hset⟩

/-- Whether a pixel is drawn depends on the two coordinates and the sprite's bytes alone (R182). -/
theorem drawnAt_congr {s s' : State} {x y x' y' : Reg} {n : Nibble} (hx : s'.readV x' = s.readV x)
    (hy : s'.readV y' = s.readV y) (hbytes : ∀ r, r < n.toNat → s'.readMem (s'.i.toNat + r) = s.readMem (s.i.toNat + r))
    (px py : Nat) : DrawnAt s' x' y' n px py ↔ DrawnAt s x y n px py := by
  rw [DrawnAt, DrawnAt, hx, hy]
  refine exists_congr fun r => exists_congr fun b => and_congr_right fun hr => ?_
  rw [hbytes r hr]

theorem pixel_drawSprite_of_drawnAt {s : State} {x y : Reg} {n : Nibble} {px py : Nat} (hpx : px < 64) (hpy : py < 32)
    (h : DrawnAt s x y n px py) : (drawSprite x y n s).1.pixel px py = !s.disp.pixel px py :=
  (pixel_blit _ _ _ _ px py hpx hpy).1 ((covers_sprite_iff_drawnAt ..).2 h)

theorem pixel_drawSprite_of_not_drawnAt {s : State} {x y : Reg} {n : Nibble} {px py : Nat} (hpx : px < 64) (hpy : py < 32)
    (h : ¬ DrawnAt s x y n px py) : (drawSprite x y n s).1.pixel px py = s.disp.pixel px py :=
  (pixel_blit _ _ _ _ px py hpx hpy).2 (mt (covers_sprite_iff_drawnAt ..).1 h)

/-- DRW reports a collision exactly when it inverts a set pixel of the grid (R183). -/
theorem collision_drawSprite_iff (s : State) (x y : Reg) (n : Nibble) :
    (drawSprite x y n s).2 = true ↔
      ∃ px py, px < 64 ∧ py < 32 ∧ DrawnAt s x y n px py ∧ s.disp.pixel px py = true := by
  simp only [drawSprite, collision_blit, covers_sprite_iff_drawnAt, Bool.false_eq_true, false_or]
  constructor
  · rintro ⟨px, py, hdrawn, hset⟩
    have hgrid : px < 64 ∧ py < 32 := by
      by_contra hoff
      rw [Display.pixel_off _ hoff] at hset
      cases hset
    exact ⟨px, py, hgrid.1, hgrid.2, hdrawn, hset⟩
  · rintro ⟨px, py, -, -, hdrawn, hset⟩
    exact ⟨px, py, hdrawn, hset⟩

/-! ## DRW whose sprite bytes are inside memory -/

theorem checkRange_read_of_spriteInRange {s : State} {n : Nibble} (h : SpriteInRange s n) :
    checkRange checkRead s.i.toNat n.toNat = none := by
  rcases h with rfl | hend
  · rfl
  · exact checkRange_read_inside hend

/-- The grid and VF are all that such a DRW changes (R182). -/
theorem exec_drw_of_spriteInRange (x y : Reg) {n : Nibble} {s : State} (h : SpriteInRange s n) :
    exec (.drw x y n) s =
      .next ((s.setDisp (drawSprite x y n s).1).setV VF (flagByte (drawSprite x y n s).2)) :=
  exec_of_check_passed rfl (checkRange_read_of_spriteInRange h)

/-- The grid and VF after such a DRW (R182). -/
theorem disp_and_VF_of_exec_drw {x y : Reg} {n : Nibble} {s t : State} (hrange : SpriteInRange s n)
    (h : exec (.drw x y n) s = .next t) :
    t.disp = (drawSprite x y n s).1 ∧ t.readV VF = flagByte (drawSprite x y n s).2 := by
  obtain rfl := Host.Outcome.next.inj ((exec_drw_of_spriteInRange x y hrange).symm.trans h)
  exact ⟨rfl, (State.readV_setV ..).trans (if_pos rfl)⟩

/-- Settles O41: pixel by pixel by the two `pixel_drawSprite` lemmas, and VF by `collision_drawSprite_iff`. -/
theorem drwInvertsDrawnPixelsAndReportsErasure : Obligations.DrwInvertsDrawnPixelsAndReportsErasure := by
  intro x y n s hrange
  have hexec := exec_drw_of_spriteInRange x y hrange
  obtain ⟨-, hVF⟩ := disp_and_VF_of_exec_drw hrange hexec
  refine ⟨_, hexec, rfl, ?drawn, ?kept, ?erased, ?none, ?others⟩
  case drawn => exact fun px py hpx hpy hdrawn => pixel_drawSprite_of_drawnAt hpx hpy hdrawn
  case kept => exact fun px py hpx hpy hdrawn => pixel_drawSprite_of_not_drawnAt hpx hpy hdrawn
  case erased => exact fun h => hVF.trans ((flagByte_eq_one_iff _).2 ((collision_drawSprite_iff ..).2 h))
  case none => exact fun h => hVF.trans ((flagByte_eq_zero_iff _).2 (mt (collision_drawSprite_iff ..).1 h))
  case others => exact fun r hr => (State.readV_setV ..).trans (if_neg hr)

/-! ## The same sprite drawn twice -/

section
variable {s s' : State} {x y x' y' : Reg} {n : Nibble} (hdisp : s'.disp = (drawSprite x y n s).1)
  (hsame : ∀ px py, DrawnAt s' x' y' n px py ↔ DrawnAt s x y n px py)
include hdisp hsame

/-- A pixel drawn twice is inverted twice, and the others are kept twice (R184). -/
theorem drawSprite_twice : (drawSprite x' y' n s').1 = s.disp := by
  refine Display.ext_pixel fun px py hpx hpy => ?_
  by_cases hdrawn : DrawnAt s x y n px py
  · rw [pixel_drawSprite_of_drawnAt hpx hpy ((hsame px py).2 hdrawn), hdisp,
      pixel_drawSprite_of_drawnAt hpx hpy hdrawn, Bool.not_not]
  · rw [pixel_drawSprite_of_not_drawnAt hpx hpy (mt (hsame px py).1 hdrawn), hdisp,
      pixel_drawSprite_of_not_drawnAt hpx hpy hdrawn]

/-- The second DRW erases what the first one set: the drawn pixels that were clear (R183). -/
theorem collision_drawSprite_twice_iff : (drawSprite x' y' n s').2 = true ↔
    ∃ px py, px < 64 ∧ py < 32 ∧ DrawnAt s x y n px py ∧ s.disp.pixel px py = false := by
  simp only [collision_drawSprite_iff, hsame]
  refine exists_congr fun px => exists_congr fun py => ?_
  refine and_congr_right fun hpx => and_congr_right fun hpy => and_congr_right fun hdrawn => ?_
  rw [hdisp, pixel_drawSprite_of_drawnAt hpx hpy hdrawn, Bool.not_eq_true']

end

/-- Where a DRW reports no collision, every drawn pixel of the grid was clear (R183). -/
theorem pixel_clear_of_no_collision {s : State} {x y : Reg} {n : Nibble} (hnone : ¬ (drawSprite x y n s).2 = true)
    {px py : Nat} (hpx : px < 64) (hpy : py < 32) (hdrawn : DrawnAt s x y n px py) : s.disp.pixel px py = false :=
  Bool.eq_false_of_not_eq_true fun hset => hnone ((collision_drawSprite_iff ..).2 ⟨px, py, hpx, hpy, hdrawn, hset⟩)

/-- Settles O42: the grid by `drawSprite_twice`, VF by `collision_drawSprite_twice_iff`; after a first draw without collision the
drawn pixels that were clear are all of them. -/
theorem drawingTwiceRestoresTheGrid : Obligations.DrawingTwiceRestoresTheGrid := by
  intro x y x' y' n s t s' u hrange hrange' hexec hexec' hgrid hx hy hbytes
  obtain ⟨htdisp, htVF⟩ := disp_and_VF_of_exec_drw hrange hexec
  obtain ⟨hudisp, huVF⟩ := disp_and_VF_of_exec_drw hrange' hexec'
  have hdisp : s'.disp = (drawSprite x y n s).1 := hgrid.trans htdisp
  have hsame := drawnAt_congr hx hy hbytes
  have hcollision : u.readV VF = 1 ↔
      ∃ px py, px < 64 ∧ py < 32 ∧ DrawnAt s x y n px py ∧ s.disp.pixel px py = false := by
    rw [huVF, flagByte_eq_one_iff, collision_drawSprite_twice_iff hdisp hsame]
  refine ⟨hudisp.trans (drawSprite_twice hdisp hsame), hcollision, fun hzero => hcollision.trans ?_⟩
  have hnone := (flagByte_eq_zero_iff _).1 (htVF.symm.trans hzero)
  constructor
  · rintro ⟨px, py, hpx, hpy, hdrawn, -⟩
    exact ⟨px, py, hpx, hpy, hdrawn⟩
  · rintro ⟨px, py, hpx, hpy, hdrawn⟩
    exact ⟨px, py, hpx, hpy, hdrawn, pixel_clear_of_no_collision hnone hpx hpy hdrawn⟩

end Sys2Proof.Machine

/-! SUPPORT. Input and timers (44_input_timers.md): the key a byte names, what a key skip does in each of its cases, the key LD Vx, K
takes, and the statements about them and about the timer moves. -/

namespace Sys2Proof.Machine

/-! ## The key a byte names (R206) -/

/-- A byte that is a key's number names that key, and under `mask` every byte names the key of its value mod 16 (R206). -/
theorem keyIndex_of_names {p : Params} {b : Byte} {k : Key}
    (h : b.toNat = k.val ∨ (p.keyIndex = .mask ∧ b.toNat % 16 = k.val)) : keyIndex p b = some k := by
  have hk := k.isLt
  by_cases hb : b.toNat < 16
  · have hval : b.toNat = k.val := by omega
    exact (dif_pos hb).trans (congrArg some (Fin.ext hval))
  · obtain hdirect | ⟨hmask, hmod⟩ := h
    · omega
    · rw [keyIndex, dif_neg hb, hmask]
      exact congrArg some (Fin.ext hmod)

/-- Under `fault` a byte above 0x0F names no key (R206). -/
theorem keyIndex_of_fault {p : Params} {b : Byte} (hfault : p.keyIndex = .fault) (hb : 0x0F < b.toNat) :
    keyIndex p b = none := by
  rw [keyIndex, dif_neg (show ¬ b.toNat < 16 by omega), hfault]

/-! ## SKP and SKNP -/

theorem keySkip_of_key {x : Reg} {k : Key} {s : State} (h : keyIndex s.params (s.readV x) = some k) (down : Bool) :
    keySkip x down s = s.setPc (if s.readKey k = down then s.pc + 2 else s.pc) := by
  simp only [keySkip, h, skipIf_eq, beq_iff_eq]

theorem keySkip_of_no_key {x : Reg} {s : State} (h : keyIndex s.params (s.readV x) = none) (down : Bool) :
    keySkip x down s = raiseStop .keyIndex (instrAddr s) s := by
  simp only [keySkip, h]

/-- SKNP skips where SKP does not (R200, R201). -/
theorem keySkip_up_of_key {x : Reg} {k : Key} {s : State} (h : keyIndex s.params (s.readV x) = some k) :
    keySkip x false s = s.setPc (if s.readKey k = true then s.pc else s.pc + 2) := by
  rw [keySkip_of_key h]
  cases s.readKey k <;> rfl

/-- Settles O43: the byte names a key (`keyIndex_of_names`), whose latch decides both skips, or none (`keyIndex_of_fault`). -/
theorem keySkipsReadTheLatch : Obligations.KeySkipsReadTheLatch := by
  intro x k s
  refine ⟨fun hnames => ?key, fun hfault habove => ?stop⟩
  case key =>
    have hkey : keyIndex s.params (s.readV x) = some k := keyIndex_of_names hnames
    exact ⟨congrArg Host.Outcome.next (keySkip_of_key hkey true), congrArg Host.Outcome.next (keySkip_up_of_key hkey)⟩
  case stop =>
    have hnone : keyIndex s.params (s.readV x) = none := keyIndex_of_fault hfault habove
    exact ⟨congrArg Host.Outcome.next (keySkip_of_no_key hnone true),
      congrArg Host.Outcome.next (keySkip_of_no_key hnone false)⟩

/-! ## LD Vx, K -/

/-- The lowest key down is the one key that is down with none below it down (R202, D14). -/
theorem keyFirstDown_of_lowest {s : State} {k : Key} (hdown : s.readKey k = true)
    (hlow : ∀ j, j < k → s.readKey j = false) : keyFirstDown s = some k := by
  cases hfirst : keyFirstDown s with
  | none => cases hdown.symm.trans (keyFirstDown_none.1 hfirst k)
  | some m =>
    obtain ⟨hmdown, hmlow⟩ := keyFirstDown_some hfirst
    obtain hlt | heq | hgt := lt_trichotomy m k
    · cases hmdown.symm.trans (hlow m hlt)
    · rw [heq]
    · cases hdown.symm.trans (hmlow k hgt)

theorem execLdK_of_lowest (x : Reg) {s : State} {k : Key} (hdown : s.readKey k = true)
    (hlow : ∀ j, j < k → s.readKey j = false) :
    execLdK x s = .next ((s.setV x (keyByte k)).setKey k false) := by
  simp only [execLdK, keyFirstDown_of_lowest hdown hlow]

/-- Settles O44: with no key down the rewind alone, else one register write and one latch write. -/
theorem waitForKeyTakesTheLowestOrRewinds : Obligations.WaitForKeyTakesTheLowestOrRewinds := by
  intro x s
  refine ⟨execLdK_of_no_key x, fun k hdown hlow => ⟨_, execLdK_of_lowest x hdown hlow, rfl, ?registers, ?latch⟩⟩
  case registers => exact fun r => State.readV_setV s x r (keyByte k)
  case latch => exact fun j => State.readKey_setKey (s.setV x (keyByte k)) k j false

/-! ## The timer moves -/

/-- Settles O46: one register write, one write of DT and one of ST. -/
theorem timerMovesCopy : Obligations.TimerMovesCopy :=
  fun _ _ => ⟨writesReg_of_setV rfl, rfl, rfl⟩

end Sys2Proof.Machine

/-! SUPPORT. Transactions, stops and runs (60_exceptions.md): what serving a transaction answers in each status, the one way an
instruction stops a running engine, and how a run unfolds into its steps. -/

namespace Sys2Proof.Machine

/-! ## Serving a transaction (R250) -/

theorem serve_of_running (e : Event) {s : State} (h : s.status = .running) : serve e s = serveRunning e s := by
  rw [serve, h]

theorem serve_of_stopped (e : Event) {s : State} {stop : Stop} (h : s.status = .stopped stop) :
    serve e s = serveStopped e stop s := by
  rw [serve, h]

/-- The first transaction listed is the one the step serves. -/
theorem step_of_sched {s : State} {e : Event} {es : List Event} (h : s.sched = e :: es) :
    step s = serve e (s.setSched es) := by
  rw [step, nextEvent, takeEvent, h, List.headD_cons, List.tail_cons]

/-- Every cycle step answers a next state: the fetch stops, or an instruction runs (R65, R238). -/
theorem cycleStep_answers (s : State) : ∃ t, cycleStep s = .next t := by
  cases hfetch : fetchFails s.pc with
  | true => exact ⟨_, cycleStep_fails hfetch⟩
  | false =>
    obtain ⟨t, hexec, -⟩ := exec_effect (decodeWord (fetchWord s s.pc)) (advance s)
    exact ⟨t, (cycleStep_fetches hfetch).trans hexec⟩

/-- A running engine serves every transaction (R250). -/
theorem serve_answers_of_running (e : Event) {s : State} (h : s.status = .running) : ∃ t, serve e s = .next t := by
  rw [serve_of_running e h]
  cases e with
  | cycle => exact cycleStep_answers s
  | timerTick | key | snapshot => exact ⟨_, rfl⟩

/-- A stopped engine serves snapshot reads alone (R232, R235). -/
theorem serve_faults_of_stopped {e : Event} {s : State} {stop : Stop} (h : s.status = .stopped stop)
    (he : e ≠ .snapshot) : serve e s = .fault (.stopped stop) := by
  rw [serve_of_stopped e h]
  cases e with
  | snapshot => exact absurd rfl he
  | cycle | timerTick | key => rfl

/-- A transaction is served, or the engine is stopped and faults with its stop. -/
theorem serve_next_or_stopped (e : Event) (s : State) :
    (∃ t, serve e s = .next t) ∨ ∃ stop, s.status = .stopped stop ∧ e ≠ .snapshot := by
  by_cases he : e = .snapshot
  · exact .inl ⟨s, he ▸ serve_snapshot s⟩
  · cases hstatus : s.status with
    | running => exact .inl (serve_answers_of_running e hstatus)
    | stopped stop => exact .inr ⟨stop, rfl, he⟩

/-- Settles O12: the key event is one write to the latch. -/
theorem hostKeyEventSetsOneKey : Obligations.HostKeyEventSetsOneKey := by
  intro s k d es hrun hsched
  have hstep : step s = .next ((s.setSched es).setKey k d) :=
    (step_of_sched hsched).trans (serve_of_running _ hrun)
  exact ⟨_, hstep, rfl, fun j => State.readKey_setKey (s.setSched es) k j d⟩

/-- Settles O15, by `serve_faults_of_stopped`. -/
theorem stoppedTakesNoStep : Obligations.StoppedTakesNoStep :=
  fun s _ hstop hev => serve_faults_of_stopped (s := takeEvent s) hstop hev

/-- Settles O47: by `exec_effect` for the instructions, by `serve_answers_of_running` for the steps. -/
theorem everyInstructionAnswersANextState : Obligations.EveryInstructionAnswersANextState := by
  refine ⟨fun i s => ?_, fun s hrun => serve_answers_of_running (s := takeEvent s) (nextEvent s) hrun⟩
  obtain ⟨t, hexec, -⟩ := exec_effect i s
  exact ⟨t, hexec⟩

/-! ## The timer tick (R240) -/

/-- A timer counts down by one, with a floor at 0. -/
theorem toNat_countDown (b : Byte) : (if b = 0 then 0 else b - 1).toNat = b.toNat - 1 := by
  split
  · next h => rw [h]; rfl
  · next h => bv_omega

theorem countDown_eq_zero_iff (b : Byte) : (if b = 0 then 0 else b - 1) = 0 ↔ b = 0 ∨ b = 1 := by
  split
  · next h => exact iff_of_true rfl (.inl h)
  · next h => rw [or_iff_right h, sub_eq_zero]

theorem toNat_dt_tickTimers (s : State) : (tickTimers s).dt.toNat = s.dt.toNat - 1 := by
  rw [tickTimers_eq]
  exact toNat_countDown s.dt

theorem toNat_st_tickTimers (s : State) : (tickTimers s).st.toNat = s.st.toNat - 1 := by
  rw [tickTimers_eq]
  exact toNat_countDown s.st

/-- ST stands at 0 after a tick that found it at 0 or 1. -/
theorem st_tickTimers_eq_zero_iff (s : State) : (tickTimers s).st = 0 ↔ s.st = 0 ∨ s.st = 1 := by
  rw [tickTimers_eq]
  exact countDown_eq_zero_iff s.st

/-- The audio is on after a tick exactly when ST is then not 0 (R241). -/
theorem audioOn_tickTimers_iff (s : State) : (tickTimers s).audioOn = true ↔ (tickTimers s).st ≠ 0 := by
  rw [ne_eq, st_tickTimers_eq_zero_iff, tickTimers_eq]
  simp

/-- A tick emits `stop` when it leaves ST at 0 and the audio was on or has just been started (R240). -/
theorem audioOut_tickTimers (s : State) :
    (tickTimers s).audioOut = s.audioOut ++ (if s.st ≠ 0 ∧ s.audioOn = false then [.start] else []) ++
      (if (tickTimers s).st = 0 ∧ (s.audioOn = true ∨ s.st ≠ 0) then [.stop] else []) := by
  have hstop : (s.st = 0 ∨ s.st = 1) ∧ (s.audioOn = true ∨ s.st ≠ 0) ↔ (s.st = 0 ∧ s.audioOn = true) ∨ s.st = 1 := by
    by_cases h0 : s.st = 0#8
    · simp [h0]
    · simp [h0]
  simp only [st_tickTimers_eq_zero_iff, hstop]
  rw [tickTimers_eq]

theorem tickTimers_status (s : State) : (tickTimers s).status = s.status := by
  rw [tickTimers_frame]

/-- Settles O14: the tick, field by field, of the state that no longer has it on its schedule. -/
theorem timerTickCountsDownAndSignals : Obligations.TimerTickCountsDownAndSignals := by
  intro s es hrun hsched
  have hstep : step s = .next (tickTimers (s.setSched es)) :=
    (step_of_sched hsched).trans (serve_of_running _ hrun)
  exact ⟨_, hstep, tickTimers_frame _, toNat_dt_tickTimers _, toNat_st_tickTimers _, audioOn_tickTimers_iff _,
    audioOut_tickTimers _⟩

/-! ## Stops (R231, R232) -/

/-- An instruction leaves the status as it was, or takes a stop that R231 explains and does nothing else. -/
theorem Effect.status_kept_or_stop {i : Instr} {s t : State} (h : Effect s i t) :
    t.status = s.status ∨ ∃ stop, StopExplained i s stop ∧ t = s.setStatus (.stopped stop) := by
  cases h with
  | stop stop explained => exact .inr ⟨stop, explained, rfl⟩
  | _ => exact .inl rfl

/-- An instruction after which a running engine is stopped took that stop: an explained one, which sets the status alone. -/
theorem stop_of_exec {i : Instr} {s t : State} {stop : Stop} (hrun : s.status = .running) (hexec : exec i s = .next t)
    (hstop : t.status = .stopped stop) : StopExplained i s stop ∧ t = s.setStatus (.stopped stop) := by
  rcases (effect_of_exec hexec).status_kept_or_stop with hkept | ⟨raised, explained, rfl⟩
  · cases hstop.symm.trans (hkept.trans hrun)
  · obtain rfl : raised = stop := Status.stopped.inj hstop
    exact ⟨explained, rfl⟩

/-- Settles O48, by `stop_of_exec`. -/
theorem stopsArePrecise : Obligations.StopsArePrecise := by
  intro i s t hrun hexec hne
  cases hstatus : t.status with
  | running => exact absurd hstatus hne
  | stopped stop => exact (stop_of_exec hrun hexec hstatus).2

/-- Settles O49, by `stop_of_exec`. -/
theorem everyStopIsExplained : Obligations.EveryStopIsExplained :=
  fun _ _ _ _ hrun hexec hstop => (stop_of_exec hrun hexec hstop).1

/-- Under the default parameters none of the stops that want a parameter at `fault` is explained, but KeyIndex (R231, R206). -/
theorem StopExplained.reason_of_default {i : Instr} {s : State} {stop : Stop} (h : StopExplained i s stop)
    (hparams : s.params = defaultParams) :
    stop.reason ∈ [.stackUnderflow, .stackOverflow, .memoryBounds, .keyIndex] := by
  obtain ⟨reason, info⟩ := stop
  cases reason with
  | stackUnderflow | stackOverflow | memoryBounds | keyIndex => simp
  | illegalEncoding | reservedWrite | indexOverflow =>
    obtain ⟨-, hfault, -⟩ := h
    rw [hparams] at hfault
    cases hfault

/-- A cycle step that stops under the default parameters: its fetch fails, or its instruction takes an explained stop. -/
theorem reason_of_cycleStep {s t : State} {stop : Stop} (hparams : s.params = defaultParams) (hrun : s.status = .running)
    (hcycle : cycleStep s = .next t) (hstop : t.status = .stopped stop) :
    stop.reason ∈ [.stackUnderflow, .stackOverflow, .memoryBounds, .keyIndex] := by
  cases hfetch : fetchFails s.pc with
  | true =>
    obtain rfl := Host.Outcome.next.inj ((cycleStep_fails hfetch).symm.trans hcycle)
    obtain rfl := Status.stopped.inj hstop
    simp
  | false =>
    have hexec := (cycleStep_fetches hfetch).symm.trans hcycle
    exact (stop_of_exec (s := advance s) hrun hexec hstop).1.reason_of_default hparams

/-- Settles O50: of the transactions only a cycle step stops a running engine. -/
theorem defaultParametersRaiseFourReasons : Obligations.DefaultParametersRaiseFourReasons := by
  intro s t stop hparams hrun hstep hstop
  rcases serve_cases hstep with rfl | ⟨-, hcycle | rfl | ⟨k, down, rfl⟩⟩
  · cases hstop.symm.trans hrun
  · exact reason_of_cycleStep (s := takeEvent s) hparams hrun hcycle hstop
  · cases hstop.symm.trans ((tickTimers_status (takeEvent s)).trans hrun)
  · cases hstop.symm.trans hrun

/-! ## Runs -/

section
variable {M : Host.Core} {s t : M.State}

theorem run_succ_of_next (n : Nat) (h : M.step s = .next t) : M.run (n + 1) s = M.run n t := by
  rw [Host.Core.run, h]

theorem run_succ_of_fault (n : Nat) {f : M.Fault} (h : M.step s = .fault f) : M.run (n + 1) s = .fault f := by
  rw [Host.Core.run, h]

end

/-- A step from a stopped state is a snapshot read: it takes the read off the schedule and changes nothing else (R235, R250). -/
theorem step_of_stopped {s : State} {stop : Stop} (h : s.status = .stopped stop) :
    step s = .next (takeEvent s) ∨ step s = .fault (.stopped stop) := by
  by_cases hev : nextEvent s = .snapshot
  · exact .inl (by rw [step, hev, serve_snapshot])
  · exact .inr (stoppedTakesNoStep s stop h hev)

/-- Settles O16, by induction on the number of steps. -/
theorem noRunLeavesStopped : Obligations.NoRunLeavesStopped := by
  intro n s t stop hstatus hreach
  induction n generalizing s with
  | zero =>
    obtain rfl : s = t := Host.Outcome.next.inj hreach
    rfl
  | succ n ih =>
    rcases step_of_stopped hstatus with hstep | hstep
    · exact ih (takeEvent s) hstatus ((run_succ_of_next (M := Sys2Proof.core) n hstep).symm.trans hreach)
    · cases (run_succ_of_fault (M := Sys2Proof.core) n hstep).symm.trans hreach

/-! ## Every interleaving is a run (R250, R254) -/

theorem cycleStep_setSched {s t : State} (h : cycleStep s = .next t) (l : List Event) :
    cycleStep (s.setSched l) = .next (t.setSched l) := by
  cases hfetch : fetchFails s.pc with
  | true =>
    obtain rfl := Host.Outcome.next.inj ((cycleStep_fails hfetch).symm.trans h)
    exact cycleStep_fails (s := s.setSched l) hfetch
  | false =>
    have hexec := (cycleStep_fetches hfetch).symm.trans h
    exact (cycleStep_fetches (s := s.setSched l) hfetch).trans (instructionsDoNotSeeTheSchedule _ _ _ l hexec)

theorem tickTimers_setSched (s : State) (l : List Event) : tickTimers (s.setSched l) = (tickTimers s).setSched l := by
  rw [tickTimers_eq, tickTimers_eq]
  rfl

/-- A transaction is served alike under every schedule, and hands the schedule on (R35). -/
theorem serve_setSched {e : Event} {s t : State} (h : serve e s = .next t) (l : List Event) :
    serve e (s.setSched l) = .next (t.setSched l) := by
  cases hstatus : s.status with
  | running =>
    rw [serve_of_running e hstatus] at h
    rw [serve_of_running (s := s.setSched l) e hstatus]
    cases e with
    | cycle => exact cycleStep_setSched h l
    | timerTick =>
      obtain rfl := Host.Outcome.next.inj h
      exact congrArg Host.Outcome.next (tickTimers_setSched s l)
    | key | snapshot =>
      obtain rfl := Host.Outcome.next.inj h
      rfl
  | stopped stop =>
    rw [serve_of_stopped e hstatus] at h
    rw [serve_of_stopped (s := s.setSched l) e hstatus]
    cases e with
    | snapshot =>
      obtain rfl := Host.Outcome.next.inj h
      rfl
    | cycle | timerTick | key => cases h

/-- What serving a transaction leaves has the schedule it was served with. -/
theorem setSched_of_serve {e : Event} {s t : State} {l : List Event} (h : serve e (s.setSched l) = .next t) :
    t.setSched l = t :=
  Host.Outcome.next.inj ((serve_setSched h l).symm.trans h)

theorem serveAll_cons_of_next {e : Event} {s t : State} (es : List Event) (h : serve e s = .next t) :
    serveAll (e :: es) s = serveAll es t := by
  simp only [serveAll, h]

theorem serveAll_cons_of_fault {e : Event} {s : State} {f : Fault} (es : List Event) (h : serve e s = .fault f) :
    serveAll (e :: es) s = .fault f := by
  simp only [serveAll, h]

/-- Settles O18, by induction on the list of transactions: the first step serves the first one, as it would be served under any
other schedule, or the engine is stopped and both sides fault. -/
theorem everyInterleavingIsARun : Obligations.EveryInterleavingIsARun := by
  intro es rest s
  induction es generalizing s with
  | nil => rfl
  | cons e es ih =>
    have hstep : step (s.setSched (e :: (es ++ rest))) = serve e (s.setSched (es ++ rest)) := step_of_sched rfl
    rcases serve_next_or_stopped e (s.setSched rest) with ⟨t, hserve⟩ | ⟨stop, hstop, he⟩
    · have hnext := hstep.trans (serve_setSched hserve (es ++ rest))
      have hrest : serveAll es (t.setSched rest) = serveAll (e :: es) (s.setSched rest) := by
        rw [setSched_of_serve hserve, serveAll_cons_of_next es hserve]
      exact (run_succ_of_next (M := Sys2Proof.core) es.length hnext).trans ((ih t).trans hrest)
    · have hfault := hstep.trans (serve_faults_of_stopped (s := s.setSched (es ++ rest)) hstop he)
      exact (run_succ_of_fault (M := Sys2Proof.core) es.length hfault).trans
        (serveAll_cons_of_fault es (serve_faults_of_stopped hstop he)).symm

end Sys2Proof.Machine

/-! SUPPORT. Program load (70_reset_and_hazards.md R281): what `boot` answers for an image that fits and for one that does not, what
the loaded memory reads as, and the statements about reset and load. -/

namespace Sys2Proof.Machine

/-! ## The memory a load leaves -/

/-- The memory after a load: the image stored over the font image, that over the reset content (R66, R281). -/
def loadedMem (font : Vector Byte 80) (image : List Byte) : Memory :=
  Memory.writeList (Memory.writeList [] fontBase font.toList) progBase image

/-- A loaded byte is the image's, else the font's, else 0: where neither was stored, the reset content stands, and its own font lies
in the region that was stored. -/
theorem read_loadedMem (font : Vector Byte 80) (image : List Byte) (a : Nat) :
    Memory.read (loadedMem font image) a =
      if 0x200 ≤ a ∧ a < 0x200 + image.length then image.getD (a - 0x200) 0
      else if 0x050 ≤ a ∧ a < 0x0A0 then font.toList.getD (a - 0x050) 0
      else 0 := by
  rw [loadedMem, Memory.read_writeList, Memory.read_writeList, Vector.length_toList]
  refine ite_congr rfl (fun _ => rfl) fun _ => ite_congr rfl (fun _ => rfl) fun hout => ?_
  exact (resetByte_eq a).trans (if_neg hout)

theorem wf_loadedMem (font : Vector Byte 80) {image : List Byte} (hfits : image.length ≤ progMax) :
    Memory.wf (loadedMem font image) := by
  have hfont : Memory.wf (Memory.writeList [] fontBase font.toList) :=
    Memory.wf_writeList Memory.wf_nil fontBase _ (by rw [Vector.length_toList]; decide)
  exact Memory.wf_writeList hfont progBase image (Nat.add_le_add_left hfits progBase)

/-- The default font alone is the reset content, whose canonical form lists nothing. -/
theorem loadedMem_default : loadedMem defaultFont [] = [] := by
  refine canonicalMemoriesThatReadAlikeAreEqual _ _ (wf_loadedMem defaultFont (Nat.zero_le progMax)) Memory.wf_nil fun a => ?_
  rw [read_loadedMem, if_neg (fun h => absurd h.1 h.2.not_ge)]
  exact (resetByte_eq a).symm

/-! ## What a load answers -/

/-- The loaded state, before P_RESET_VALUES has its say over the registers. -/
def loadedState (p : Params) (font : Vector Byte 80) (image : List Byte) : State :=
  { State.reset with params := p, mem := loadedMem font image }

theorem boot_of_tooLarge (p : Params) (font : Vector Byte 80) {image : List Byte} (h : progMax < image.length) :
    boot p font image = .error .tooLarge := if_pos h

theorem boot_of_fits (p : Params) (font : Vector Byte 80) {image : List Byte} (h : image.length ≤ progMax) :
    boot p font image = .ok (resetRegisters p.resetValues (loadedState p font image)) := if_neg h.not_gt

/-- Only an image that fits loads, and it loads to the one state. -/
theorem boot_ok {p : Params} {font : Vector Byte 80} {image : List Byte} {s : State} (h : boot p font image = .ok s) :
    image.length ≤ progMax ∧ s = resetRegisters p.resetValues (loadedState p font image) := by
  rcases Nat.lt_or_ge progMax image.length with hlarge | hfits
  · cases (boot_of_tooLarge p font hlarge).symm.trans h
  · exact ⟨hfits, Except.ok.inj (h.symm.trans (boot_of_fits p font hfits))⟩

/-- Settles O8: the load error by `boot_of_tooLarge`; else the registers are those `resetRegisters_frame` leaves open, and the bytes
those of `read_loadedMem`. -/
theorem bootLoadsTheImageOrRefusesIt : Obligations.BootLoadsTheImageOrRefusesIt := by
  intro p font image
  refine ⟨boot_of_tooLarge p font, fun hfits => ⟨_, boot_of_fits p font hfits, ?_⟩⟩
  obtain ⟨hframe, hzero⟩ := resetRegisters_frame p.resetValues (loadedState p font image)
  have hmem : (resetRegisters p.resetValues (loadedState p font image)).mem = loadedMem font image :=
    congrArg (fun s : State => s.mem) hframe
  rw [hmem]
  exact ⟨hframe, hzero, fun a => (congrArg (Memory.read · a) hmem).trans (read_loadedMem font image a)⟩

/-- Settles O9: `loadedMem_default`; the default parameters leave the registers at zero. -/
theorem resetIsTheBootOfAnEmptyImage : Obligations.ResetIsTheBootOfAnEmptyImage := by
  have hload : loadedState defaultParams defaultFont [] = State.reset := by
    rw [loadedState, loadedMem_default]
    rfl
  calc boot defaultParams defaultFont []
      = .ok (loadedState defaultParams defaultFont []) := boot_of_fits _ _ (Nat.zero_le progMax)
    _ = .ok State.reset := by rw [hload]

/-! ## The invariant after a load -/

/-- The invariant does not speak of the registers P_RESET_VALUES sets. -/
theorem Inv.resetRegisters {s : State} (h : Inv s) (r : ResetValues) : Inv (Machine.resetRegisters r s) := by
  rw [(resetRegisters_frame r s).1]
  exact ⟨h.memory, h.depth, h.audio, h.stopInfo⟩

/-- Settles O58: beside memory, canonical by `wf_loadedMem`, the loaded state is as at reset. -/
theorem bootMeetsTheInvariant : Obligations.BootMeetsTheInvariant := by
  intro p font image s hboot
  obtain ⟨hfits, rfl⟩ := boot_ok hboot
  have hreset := resetMeetsTheInvariant
  have hloaded : Inv (loadedState p font image) :=
    ⟨wf_loadedMem font hfits, hreset.depth, hreset.audio, hreset.stopInfo⟩
  exact hloaded.resetRegisters p.resetValues

end Sys2Proof.Machine
